-- ==== Sys2Proof/Word.lean ====
section
/-! DEFINITION. The two widths every rule speaks of: 32-bit values (rule R8) and 35-bit command words (rule R50). -/

namespace Sys2Proof

/-- A 32-bit value `v[31:0]`, bit 0 the least significant (rule R8): a state word, OUT, the data field. -/
abbrev Word := BitVec 32

/-- A command word CMD[34:0] (rule R50). -/
abbrev Command := BitVec 35

end Sys2Proof
end

