-- ==== Sys2Proof/Machine/Operands.lean ====
section
/-! DEFINITION. The operators on 32-bit values (rule R9) and the operand forms of the data field (rule R52). -/

namespace Sys2Proof.Machine

/-- `shl(a, n) = (u32(a) * 2^n) mod 2^32` (rule R9). -/
def shl (a : Word) (n : Nat) : Word := a <<< n

/-- `asr(a, n)`, the arithmetic right shift: copies of a[31] enter at bit 31 (rule R9). RB's `>>`. -/
def asr (a : Word) (n : Nat) : Word := a.sshiftRight n

/-- `lsr(a, n)`, the logical right shift: zeros enter at bit 31. No command uses it (rule R9). -/
def lsr (a : Word) (n : Nat) : Word := a >>> n

/-- The operand of FOLD: the whole data field, "not extended, scaled or range-checked" (rule R52). -/
def foldOperand (data : Word) : Word := data

/-- The operand of RDW: k = data[1:0]; data[31:2] is ignored (rule R52). -/
def rdwIndex (data : Word) : BitVec 2 := data.extractLsb' 0 2

/-- `zext_32` of a 2-bit index (rule R8), as RDIDX and the canonical RDW encoding use it. -/
def zext32 (k : BitVec 2) : Word := k.setWidth 32

end Sys2Proof.Machine
end

