-- ==== Sys2Proof/Syntax.lean ====
section
/-! DEFINITION. The commands of the block (one constructor per row of the opcode map, rule R53) and the lines of the spec's
assembler notation (rule R57). -/

namespace Sys2Proof

/-- A command: its op and the data bits the command reads. Data bits the command ignores are no part of it, because every
value of them gives the same result (rule R52; log 6). -/
inductive Instr where
  /-- NOP, op 0 (rule R90). -/
  | nop
  /-- CLEAR, op 1 (rule R70). -/
  | clear
  /-- FOLD c, op 2, with c = data[31:0] (rule R71). -/
  | fold (c : Word)
  /-- NEXT, op 3 (rule R80). -/
  | next
  /-- RDW k, op 4, with k = data[1:0] (rule R91). -/
  | rdw (k : BitVec 2)
  /-- RDIDX, op 5 (rule R92). -/
  | rdidx
  /-- RSVD6, op 6, reserved: raises IllegalCommand (rules R54, R121). -/
  | rsvd6
  /-- RSVD7, op 7, reserved: raises IllegalCommand (rules R54, R121). -/
  | rsvd7
deriving DecidableEq, Repr

/-- The mnemonic of a command, as rule R57 writes it. -/
def Instr.mnemonic : Instr → String
  | .nop => "NOP"
  | .clear => "CLEAR"
  | .fold _ => "FOLD"
  | .next => "NEXT"
  | .rdw _ => "RDW"
  | .rdidx => "RDIDX"
  | .rsvd6 => "RSVD6"
  | .rsvd7 => "RSVD7"

/-- The operand of a FOLD line: "a 32-bit number ... or a quoted character" (rule R57). -/
inductive FoldOperand where
  /-- A number, decimal or hexadecimal in the text. -/
  | number (n : Nat)
  /-- A quoted character, which stands for its code point (rule R76). -/
  | quoted (ch : Char)
deriving DecidableEq, Repr

/-- A line of the spec's assembler notation (rule R57), the pseudo-instructions SEED and DRAW (rules R58, R59) among them. -/
inductive AsmLine where
  | nop
  | clear
  | fold (operand : FoldOperand)
  | next
  | rdw (k : Nat)
  | rdidx
  | rsvd6
  | rsvd7
  /-- RESET: not a command; a cycle with `rst` = 1. -/
  | reset
  /-- `SEED "s"`: CLEAR, then one FOLD per character code of s. -/
  | seed (s : List Char)
  /-- `DRAW n`: n consecutive NEXT commands. -/
  | draw (n : Nat)
  /-- A line that holds nothing but a comment or spaces. -/
  | blank
deriving DecidableEq, Repr

end Sys2Proof
end

