-- ==== Sys2Proof/Decode.lean ====
section
/-! DEFINITION. The command decoder, total on the 2^35 command words (rules R51, R53, R61), and the encoder, which writes the
canonical word with every ignored bit 0 (rules R53, R57). -/

namespace Sys2Proof

/-- The field op = CMD[34:32] (rule R51). -/
def opField (w : Command) : BitVec 3 := w.extractLsb' 32 3

/-- The field data = CMD[31:0] (rule R51). -/
def dataField (w : Command) : Word := w.extractLsb' 0 32

/-- A command word from its two fields: CMD = op ++ data, op in the high bits (rule R51). -/
def commandOf (op : BitVec 3) (data : Word) : Command := op ++ data

/-- The opcode map of rule R53, one arm per value of op (its bits 2, 1, 0), applied to the two fields. -/
def decodeFields (op : BitVec 3) (data : Word) : Instr :=
  match op.getLsbD 2, op.getLsbD 1, op.getLsbD 0 with
  | false, false, false => .nop
  | false, false, true => .clear
  | false, true, false => .fold (Machine.foldOperand data)
  | false, true, true => .next
  | true, false, false => .rdw (Machine.rdwIndex data)
  | true, false, true => .rdidx
  | true, true, false => .rsvd6
  | true, true, true => .rsvd7

/-- The decoder: "Every one of the 2^35 command words decodes to exactly one row of rule R53" (rule R61). -/
def decode (w : Command) : Instr := decodeFields (opField w) (dataField w)

/-- Why a number is not read as a command. -/
inductive DecodeRefusal where
  /-- It has a bit above CMD[34]: "There is one format, named C, and one length: every command is 35 bits" (rule R50). -/
  | widerThanCommand
deriving DecidableEq, Repr

/-- Decodes a number: refused by name where it is no 35-bit word (rule R50), else decoded. -/
def decodeNat (w : Nat) : Except DecodeRefusal Instr :=
  if w < 2 ^ 35 then .ok (decode (BitVec.ofNat 35 w)) else .error .widerThanCommand

/-- The op of a command (rule R53). -/
def Instr.op : Instr → BitVec 3
  | .nop => 0b000#3
  | .clear => 0b001#3
  | .fold _ => 0b010#3
  | .next => 0b011#3
  | .rdw _ => 0b100#3
  | .rdidx => 0b101#3
  | .rsvd6 => 0b110#3
  | .rsvd7 => 0b111#3

/-- The canonical data field of a command: its operand, every ignored bit 0 (rule R53). -/
def Instr.data : Instr → Word
  | .nop => 0#32
  | .clear => 0#32
  | .fold c => c
  | .next => 0#32
  | .rdw k => Machine.zext32 k
  | .rdidx => 0#32
  | .rsvd6 => 0#32
  | .rsvd7 => 0#32

/-- The encoder: the canonical command word (rule R53: "The canonical encoding sets every ignored bit to 0"). -/
def encode (i : Instr) : Command := commandOf i.op i.data

/-- The data bits a command with this op reads (rule R52): all 32 for FOLD, the low 2 for RDW, none for the others. -/
def readMask (op : BitVec 3) : Word :=
  if op = 0b010#3 then 0xFFFFFFFF#32 else if op = 0b100#3 then 0x00000003#32 else 0#32

/-- A command word with every ignored bit set to 0 (rule R53). -/
def canonical (w : Command) : Command := commandOf (opField w) (dataField w &&& readMask (opField w))

/-- A row of the opcode map as a match and mask pair on CMD[34:0] (rule R53). -/
structure OpcodeRow where
  /-- The mnemonic of rule R57. -/
  mnemonic : String
  /-- The fixed bits' values. -/
  pattern : Command
  /-- The fixed bits. -/
  mask : Command
deriving DecidableEq, Repr

/-- A word is of a row where the masked bits are the row's. -/
def OpcodeRow.admits (r : OpcodeRow) (w : Command) : Bool := w &&& r.mask == r.pattern

/-- The eight match and mask pairs of rule R53. -/
def opcodeTable : List OpcodeRow :=
  [ ⟨"NOP", 0x000000000#35, 0x700000000#35⟩
  , ⟨"CLEAR", 0x100000000#35, 0x700000000#35⟩
  , ⟨"FOLD", 0x200000000#35, 0x700000000#35⟩
  , ⟨"NEXT", 0x300000000#35, 0x700000000#35⟩
  , ⟨"RDW", 0x400000000#35, 0x700000000#35⟩
  , ⟨"RDIDX", 0x500000000#35, 0x700000000#35⟩
  , ⟨"RSVD6", 0x600000000#35, 0x700000000#35⟩
  , ⟨"RSVD7", 0x700000000#35, 0x700000000#35⟩ ]

/-- The instruction this decoder reads from the table's bits `w` (bit 0 the least significant of CMD). `nbits` counts the
table's bits in whole bytes (40 for the 35-bit format C); bits above `nbits` are 0. The word crosses the port whole, so no
byte order enters (rule R41; log 5). -/
def decodeTableWord (nbits w : Nat) : Option Instr := (decodeNat (w % 2 ^ nbits)).toOption

end Sys2Proof
end

