-- ==== Sys2Proof/Machine/State.lean ====
section
/-! DEFINITION. The machine's state: the 163 bits of rule R20 and the pin levels the host is going to drive (rule R60), and
the state right after reset (rule R32). -/

namespace Sys2Proof.Machine

/-- The input pins at one rising edge of `clk` (rule R60). -/
structure PortIn where
  /-- `rst`: synchronous reset, active high (rule R140). -/
  rst : Bool
  /-- `cmd_valid`: a command is presented this cycle (rule R55 where it is 0). -/
  cmdValid : Bool
  /-- `cmd_op`: CMD[34:32]. -/
  cmdOp : BitVec 3
  /-- `cmd_data`: CMD[31:0]. -/
  cmdData : Word
deriving DecidableEq, Repr

/-- The machine's state. The first seven fields are the spec's whole state (rule R20: "exactly"). `inputs` is the model's own
field: what the host will drive, which the spec calls the host's state (rule R27; log 1). -/
structure State where
  /-- W[0], RB's w0 (rule R21). -/
  w0 : Word
  /-- W[1], RB's w1 (rule R21). -/
  w1 : Word
  /-- W[2], RB's w2 (rule R21). -/
  w2 : Word
  /-- W[3], RB's w3 (rule R21). -/
  w3 : Word
  /-- FIDX, the index of the word the next FOLD writes (rule R23). -/
  fidx : BitVec 2
  /-- OUT, the output register: the last draw or readback (rule R24). -/
  out : Word
  /-- ERR, the sticky error flag (rule R25). -/
  err : BitVec 1
  /-- DESIGN CHOICE (log 1), safe: the pin levels at the coming rising edges, the next edge first; after the last of them
  every edge is idle (rule R55). -/
  inputs : List PortIn
deriving DecidableEq, Repr

/-- The reset state (rule R32): all of it 0. No edge is pending: a program comes from the host, over the port (log 2). -/
def State.reset : State where
  w0 := 0x00000000#32
  w1 := 0x00000000#32
  w2 := 0x00000000#32
  w3 := 0x00000000#32
  fidx := 0#2
  out := 0x00000000#32
  err := 0#1
  inputs := []

/-- Why the machine stops with a fault: nothing does. The block's one exception, IllegalCommand, is a next state: "the block
does not halt" (rule R122), and the other commands raise nothing (rule R120). A closed type with no constructor, so nobody
raises a fault; safe (log 4). -/
inductive Fault where
deriving DecidableEq, Repr

/-- Why the machine refuses a step. -/
inductive Refusal where
  /-- An instruction without a meaning yet, by its mnemonic. Raised by an arm of `exec` only; no arm does, since every row of
  the opcode map has its meaning. Safe. -/
  | notModelled (mnemonic : String)
deriving DecidableEq, Repr

/-- What a step of this machine answers. -/
abbrev Outcome := Host.Outcome State Fault Refusal

end Sys2Proof.Machine
end

