-- ==== Sys2Proof/Machine/Flags.lean ====
section
/-! DEFINITION. The flags. "ERR (rule R25) is the only flag. The block has no condition codes, predicates or carry, overflow or
zero flags" (rule R28): so the one flag computation is setting ERR. -/

namespace Sys2Proof.Machine

/-- ERR <- 1 (rule R25: "set to 1 by a reserved opcode ... cleared to 0 only by reset"). -/
def State.setErr (s : State) : State := { s with err := 1#1 }

end Sys2Proof.Machine
end

