-- ==== Sys2Proof/Machine/Ops.lean ====
section
/-! DEFINITION. The shared operations: reading and writing the state words, the arithmetic of FOLD and NEXT with RB's
constants (rule R6), taking the exception (rule R122), and reset (rule R140). -/

namespace Sys2Proof.Machine

/-- FOLD_SHIFT (rule R6). -/
def foldShift : Nat := 5

/-- XS_A, the left shift of w0 (rule R6). -/
def xsA : Nat := 11

/-- XS_B, the arithmetic right shift of w3 (rule R6). -/
def xsB : Nat := 19

/-- XS_C, the arithmetic right shift of t (rule R6). -/
def xsC : Nat := 8

/-- OUT_DEN, the denominator of the returned value (rule R6). -/
def outDen : Nat := 2 ^ 31

/-- `W[i]` (rule R10), by the two bits of the index. -/
def State.getW (s : State) (i : BitVec 2) : Word :=
  match i.getLsbD 1, i.getLsbD 0 with
  | false, false => s.w0
  | false, true => s.w1
  | true, false => s.w2
  | true, true => s.w3

/-- `W[i] <- v` (rule R10). -/
def State.setW (s : State) (i : BitVec 2) (v : Word) : State :=
  match i.getLsbD 1, i.getLsbD 0 with
  | false, false => { s with w0 := v }
  | false, true => { s with w1 := v }
  | true, false => { s with w2 := v }
  | true, true => { s with w3 := v }

/-- `W[0..3] <- 0` (rule R70). -/
def State.clearWords (s : State) : State :=
  { s with w0 := 0x00000000#32, w1 := 0x00000000#32, w2 := 0x00000000#32, w3 := 0x00000000#32 }

/-- The words move down by one and n enters at the top: `W[0] <- W[1]; W[1] <- W[2]; W[2] <- W[3]; W[3] <- n`, every
right-hand side read before (rule R80). -/
def State.shiftWords (s : State) (n : Word) : State :=
  { s with w0 := s.w1, w1 := s.w2, w2 := s.w3, w3 := n }

/-- `FIDX <- v` (rule R10). -/
def State.setFidx (s : State) (v : BitVec 2) : State := { s with fidx := v }

/-- `OUT <- v` (rule R10). -/
def State.setOut (s : State) (v : Word) : State := { s with out := v }

/-- `(shl(w, 5) - w) + c`, all modulo 2^32 (rule R71). -/
def foldWord (w c : Word) : Word := (shl w foldShift - w) + c

/-- `t = W[0] XOR shl(W[0], 11)` (rule R80). -/
def xorshiftT (x0 : Word) : Word := x0 ^^^ shl x0 xsA

/-- `n = W[3] XOR asr(W[3], 19) XOR t XOR asr(t, 8)`, the new fourth word (rule R80). -/
def xorshiftN (x0 x3 : Word) : Word :=
  x3 ^^^ asr x3 xsB ^^^ xorshiftT x0 ^^^ asr (xorshiftT x0) xsC

/-- The block's exceptions: "exactly one" (rule R121). `op` is the argument of `raise IllegalCommand(op)` (rule R10). -/
inductive BlockException where
  | illegalCommand (op : BitVec 3)
deriving DecidableEq, Repr

/-- The exception's code: the value the `err` port shows once it has been taken; 0 means "no exception" (rule R121). -/
def BlockException.code : BlockException → BitVec 1
  | .illegalCommand _ => 1#1

/-- Taking an exception: ERR <- 1 "and nothing else" (rule R122); the op is not recorded (rule R121: "no copy of the command
word"). There is no return from it: "The block has no handler, vector, saved state, stack, return command" (rule R126). -/
def State.takeException (s : State) (e : BlockException) : State :=
  match e with
  | .illegalCommand _ => s.setErr

/-- A reset edge (rule R140): the state of rule R32; what the host drives at later edges is not the block's to change. -/
def State.applyReset (s : State) : State := { State.reset with inputs := s.inputs }

end Sys2Proof.Machine
end

