-- ==== Sys2Proof/Machine/Generation.lean ====
section
/-! DEFINITION. The generation command NEXT (spec/41_generation.md). -/

namespace Sys2Proof.Machine

/-- NEXT (rule R80): one Xorshift32x4 step; the new W[3] is latched into OUT. FIDX and ERR are unchanged. -/
def execNext (s : State) : Outcome :=
  .next ((s.shiftWords (xorshiftN s.w0 s.w3)).setOut (xorshiftN s.w0 s.w3))

end Sys2Proof.Machine
end

