-- ==== Sys2Proof/Machine/Readback.lean ====
section
/-! DEFINITION. The idle and readback commands NOP, RDW and RDIDX (spec/42_readback.md). -/

namespace Sys2Proof.Machine

/-- NOP (rule R90): no state change. -/
def execNop (s : State) : Outcome := .next s

/-- RDW k (rule R91): `OUT <- W[k]`. -/
def execRdw (k : BitVec 2) (s : State) : Outcome := .next (s.setOut (s.getW k))

/-- RDIDX (rule R92): `OUT <- zext_32(FIDX)`. -/
def execRdidx (s : State) : Outcome := .next (s.setOut (zext32 s.fidx))

end Sys2Proof.Machine
end

