-- ==== Sys2Proof/Machine/Reserved.lean ====
section
/-! DEFINITION. The reserved opcodes, which the block executes as IllegalCommand (rules R54, R121, R122). -/

namespace Sys2Proof.Machine

/-- RSVD6, op 0b110: `raise IllegalCommand(op)` (rule R121). -/
def execRsvd6 (s : State) : Outcome := .next (s.takeException (.illegalCommand 0b110#3))

/-- RSVD7, op 0b111: `raise IllegalCommand(op)` (rule R121). -/
def execRsvd7 (s : State) : Outcome := .next (s.takeException (.illegalCommand 0b111#3))

end Sys2Proof.Machine
end

