-- ==== Sys2Proof/Machine/Seeding.lean ====
section
/-! DEFINITION. The seeding commands CLEAR and FOLD (spec/40_seeding.md). -/

namespace Sys2Proof.Machine

/-- CLEAR (rule R70): W <- 0 and FIDX <- 0; OUT and ERR are unchanged. -/
def execClear (s : State) : Outcome := .next (s.clearWords.setFidx 0#2)

/-- FOLD c (rule R71): with i = FIDX, `W[i] <- (shl(W[i], 5) - W[i]) + c` and `FIDX <- (FIDX + 1) mod 4`. -/
def execFold (c : Word) (s : State) : Outcome :=
  .next ((s.setW s.fidx (foldWord (s.getW s.fidx) c)).setFidx (s.fidx + 1#2))

end Sys2Proof.Machine
end

