-- ==== Sys2Proof/Machine/Ports.lean ====
section
/-! DEFINITION. The ports (rule R60): the pins the host drives at an edge, and the outputs. -/

namespace Sys2Proof.Machine

/-- The pins of an idle cycle: `cmd_valid` = 0 and `rst` = 0 (rule R55). -/
def PortIn.idle : PortIn := ⟨false, false, 0#3, 0#32⟩

/-- The pins of a cycle with `rst` = 1 and no command: a `RESET` line (rule R57). -/
def PortIn.resetCycle : PortIn := ⟨true, false, 0#3, 0#32⟩

/-- The pins of a cycle that presents a command word, split into its two fields (rules R50, R60). -/
def PortIn.ofCommand (w : Command) : PortIn := ⟨false, true, opField w, dataField w⟩

/-- The command word on `cmd_op` and `cmd_data`: CMD[34:32] and CMD[31:0] (rule R60). -/
def PortIn.command (p : PortIn) : Command := commandOf p.cmdOp p.cmdData

/-- The pins at the next rising edge; idle after the last edge the host planned (rule R55; log 1). -/
def State.pins (s : State) : PortIn := s.inputs.headD .idle

/-- The edge has been: the host goes on to what it drives at the edge after (rule R27: "always advances by one command"). -/
def State.consumePins (s : State) : State := { s with inputs := s.inputs.tail }

/-- The host drives these pins at the next edge, before all it had planned. -/
def State.present (s : State) (p : PortIn) : State := { s with inputs := p :: s.inputs }

/-- The host drives these pins at the next edges, in order, before all it had planned. -/
def State.presentAll (s : State) (ps : List PortIn) : State := { s with inputs := ps ++ s.inputs }

/-- The output port `out_data`: the OUT register (rules R24, R60). -/
def State.outData (s : State) : Word := s.out

/-- The output port `err`: the ERR flag (rules R25, R60). -/
def State.errPort (s : State) : BitVec 1 := s.err

/-- The output port `cmd_ready`: "constant 1: every presented command is accepted in the cycle it is presented" (rule R60). -/
def State.cmdReady (_s : State) : Bool := true

/-- The value RB's next() returns, read from a 32-bit output word: the exact rational `u32(OUT) / 2^31` (rules R11, R81). -/
def drawValue (v : Word) : Rat := (v.toNat : Rat) / (outDen : Rat)

end Sys2Proof.Machine
end

