-- ==== Sys2Proof/Machine/Clock.lean ====
section
/-! DEFINITION. What one rising edge of `clk` does with the pins (rules R55, R125, R140, R143). -/

namespace Sys2Proof.Machine

/-- One rising edge (rule R143). With `rst` = 1 the block takes the reset state and a command presented at the same edge is
discarded: "reset wins" (rules R125, R140). With `rst` = 0 and `cmd_valid` = 1 the command is applied in full. Else nothing
changes (rule R55). -/
def risingEdge (p : PortIn) (s : State) : Outcome :=
  if p.rst then .next s.applyReset
  else if p.cmdValid then exec (decode p.command) s
  else .next s

/-- The state with the instruction of bits `w` (numbered as the opcode table numbers them, bits above `nbits` 0) presented
at the next edge. -/
def State.presentTableWord (s : State) (nbits w : Nat) : State :=
  s.present (.ofCommand (BitVec.ofNat 35 (w % 2 ^ nbits)))

end Sys2Proof.Machine
end

