-- ==== Sys2Proof/Machine/Step.lean ====
section
/-! DEFINITION. One step of the machine: one rising edge of `clk` (rules R143, R145), at which the block meets the pins the
host drives: `state_{k+1} = step(state_k, cmd_k)` (rule R44). -/

namespace Sys2Proof.Machine

/-- One rising edge with the pins the host drives at it. -/
def step (s : State) : Host.Outcome State Fault Refusal := risingEdge s.pins s.consumePins

/-- The state with the instruction presented at the next edge: this machine fetches from its command port (rule R46; log 2). -/
def State.withFetchWord (s : State) (nbits w : Nat) : State := s.presentTableWord nbits w

end Sys2Proof.Machine
end

