-- ==== Sys2Proof/Config.lean ====
section
/-! DEFINITION. What the spec leaves to a parameter. The block itself takes none (rule R7: "The block itself takes no model
parameter"), and no command has an undefined result, so there is no free value here. The two parameters are the host's
(rules R101, R102; decisions D20, D21). -/

namespace Sys2Proof

/-- CHAR_UNIT (rule R102, decision D20): what the host folds for one seed character. -/
inductive CharUnit where
  /-- CODE_POINT: one FOLD per Unicode scalar value. The default. -/
  | codePoint
  /-- UTF16_UNIT: one FOLD per UTF-16 code unit. -/
  | utf16Unit
deriving DecidableEq, Repr

/-- EMPTY_SEED_POLICY (rule R101, decision D21): how the host takes an explicitly empty seed string. -/
inductive EmptySeedPolicy where
  /-- NOT_SUPPLIED: as if no seed had been given; the fallback seed is used. The default. -/
  | notSupplied
  /-- ZERO_LENGTH: the empty string is the seed; the host issues CLEAR alone. -/
  | zeroLength
deriving DecidableEq, Repr

/-- The host-side parameters with the spec's defaults (rule R7, decisions D20 and D21). -/
structure HostParams where
  /-- CHAR_UNIT. -/
  charUnit : CharUnit := .codePoint
  /-- EMPTY_SEED_POLICY. -/
  emptySeed : EmptySeedPolicy := .notSupplied
deriving DecidableEq, Repr

end Sys2Proof
end

