-- ==== Sys2Proof/Machine/Observe.lean ====
section
/-! DEFINITION. Issuing commands over the port and observing the run (rules R44, R58, R59, R142, R146). -/

namespace Sys2Proof.Machine

/-- Goes on with `f` where `m` answers a value; a fault or a refusal stays what it is. -/
def andThen {α β : Type} (m : Host.Outcome α Fault Refusal) (f : α → Host.Outcome β Fault Refusal) :
    Host.Outcome β Fault Refusal :=
  match m with
  | .next a => f a
  | .fault r => .fault r
  | .refused r => .refused r

/-- The host presents one command at the next edge, in its canonical encoding, and the edge happens (rules R50, R143). -/
def issue (i : Instr) (s : State) : Outcome := step (s.present (.ofCommand (encode i)))

/-- The host issues commands one at a time and reads `out_data` after each: "the sequence of out_data values after each
command, together with the final" state (rule R146). -/
def runCommands : List Instr → State → Host.Outcome (List Word × State) Fault Refusal
  | [], s => .next ([], s)
  | i :: rest, s =>
    andThen (issue i s) fun t => andThen (runCommands rest t) fun r => .next (t.outData :: r.1, r.2)

/-- The commands of `SEED s` for the character codes of s: CLEAR, then one FOLD per code, in order (rule R58). -/
def seedCommands (codes : List Word) : List Instr := .clear :: codes.map .fold

/-- The commands of `DRAW n`: n consecutive NEXT commands (rule R59). -/
def drawCommands (n : Nat) : List Instr := List.replicate n .next

/-- `DRAW n`, with the draws the host reads (rule R59). -/
def drawMany (n : Nat) (s : State) : Host.Outcome (List Word × State) Fault Refusal := runCommands (drawCommands n) s

/-- `k` rising edges with whatever the host drives at them (rule R143). -/
def edges : Nat → State → Outcome
  | 0, s => .next s
  | k + 1, s => andThen (step s) (edges k)

/-- The state after a sequence of commands, issued one at a time. -/
def afterCommands (cs : List Instr) (s : State) : Outcome := andThen (runCommands cs s) fun r => .next r.2

end Sys2Proof.Machine
end

