-- ==== Sys2Proof/WellFormed.lean ====
section
/-! DEFINITION. Which terms are well formed. Every term of `Instr` is: its operands have the very widths of the encoding's
fields and every value of them is legal (rule R52, rule R91 "Every k is legal", rule R71 "Every value of c is accepted"). The
checks that can refuse a term are on assembler lines, whose operands are numbers of any size (rule R57). -/

namespace Sys2Proof

/-- Well-formed commands: all of them, since the operand fields have the encoding's own widths (rule R52). -/
def Instr.wellFormed : Instr → Bool
  | .nop => true
  | .clear => true
  | .fold _ => true
  | .next => true
  | .rdw _ => true
  | .rdidx => true
  | .rsvd6 => true
  | .rsvd7 => true

/-- A FOLD operand fits the 32-bit data field; a quoted character always does (rule R52: "A code point needs at most 21 bits"). -/
def FoldOperand.wellFormed : FoldOperand → Bool
  | .number n => decide (n < 2 ^ 32)
  | .quoted _ => true

/-- Well-formed assembler lines (rule R57): "c is a 32-bit number", "k is 0, 1, 2 or 3". -/
def AsmLine.wellFormed : AsmLine → Bool
  | .nop => true
  | .clear => true
  | .fold operand => operand.wellFormed
  | .next => true
  | .rdw k => decide (k < 4)
  | .rdidx => true
  | .rsvd6 => true
  | .rsvd7 => true
  | .reset => true
  | .seed _ => true
  | .draw _ => true
  | .blank => true

end Sys2Proof
end

