-- ==== Sys2Proof/Machine/Assembler.lean ====
section
/-! DEFINITION. The spec's assembler notation (rule R57) with its pseudo-instructions (rules R58, R59): what a line stands
for, its encoding, and reading a line of text. Details of the text that rule R57 leaves open are DESIGN CHOICE (log 13). -/

namespace Sys2Proof.Machine

/-- The value of a FOLD operand: the number, or the character's code point (rules R57, R76). -/
def foldOperandValue : FoldOperand → Nat
  | .number n => n
  | .quoted ch => ch.toNat

/-- The code point of a character, zero-extended to 32 bits (rule R52). -/
def codePoint (ch : Char) : Word := BitVec.ofNat 32 ch.toNat

/-- The UTF-16 code units of a character: itself, or two surrogates above U+FFFF (rule R102; PRESUMED, log 10). -/
def utf16Units (ch : Char) : List Word :=
  if ch.toNat < 0x10000 then [BitVec.ofNat 32 ch.toNat]
  else [BitVec.ofNat 32 (0xD800 + (ch.toNat - 0x10000) / 0x400), BitVec.ofNat 32 (0xDC00 + (ch.toNat - 0x10000) % 0x400)]

/-- The character codes the host folds, index 0 first (rule R102). -/
def charCodes (u : CharUnit) (s : List Char) : List Word :=
  match u with
  | .codePoint => s.map codePoint
  | .utf16Unit => s.flatMap utf16Units

/-- The commands a line stands for: one, or a pseudo-instruction's sequence (rules R57 to R59); none for RESET and blank lines.
A SEED line's codes are "the character codes of s" of rule R102 (rule R58), so they follow the host's parameter CHAR_UNIT,
`u`; a FOLD line's quoted character "stands for its code point" under either value (rule R57). -/
def lineCommands (u : CharUnit) : AsmLine → List Instr
  | .nop => [.nop]
  | .clear => [.clear]
  | .fold operand => [.fold (BitVec.ofNat 32 (foldOperandValue operand))]
  | .next => [.next]
  | .rdw k => [.rdw (BitVec.ofNat 2 k)]
  | .rdidx => [.rdidx]
  | .rsvd6 => [.rsvd6]
  | .rsvd7 => [.rsvd7]
  | .reset => []
  | .seed s => seedCommands (charCodes u s)
  | .draw n => drawCommands n
  | .blank => []

/-- The edges a line stands for: a `rst` = 1 cycle for RESET, else one edge per command (rule R57). -/
def lineCycles (u : CharUnit) (l : AsmLine) : List PortIn :=
  match l with
  | .reset => [.resetCycle]
  | .nop | .clear | .fold _ | .next | .rdw _ | .rdidx | .rsvd6 | .rsvd7 | .seed _ | .draw _ | .blank =>
    (lineCommands u l).map fun i => .ofCommand (encode i)

/-- The edges of a program, line by line. -/
def assemble (u : CharUnit) (ls : List AsmLine) : List PortIn := ls.flatMap (lineCycles u)

/-- A hexadecimal digit, letters in capitals as the spec writes them. -/
def hexChar (n : Nat) : Char := if n < 10 then Char.ofNat (48 + n) else Char.ofNat (55 + n)

/-- "The encoding of a line is the 35-bit CMD word in 9 hex digits" (rule R57). -/
def hexOfCommand (w : Command) : List Char :=
  [8, 7, 6, 5, 4, 3, 2, 1, 0].map fun i => hexChar (w.toNat / 16 ^ i % 16)

/-- Why a line of text is not read. -/
inductive AsmRefusal where
  /-- The first word is no mnemonic of rule R57. -/
  | unknownMnemonic
  /-- The operand is missing, is not one the mnemonic takes, or does not read as one. -/
  | badOperand
  /-- Something other than a comment stands after the operand. -/
  | trailingText
  /-- The operand is too large for its field (rule R57: "a 32-bit number", "0, 1, 2 or 3"). -/
  | operandTooLarge
deriving DecidableEq, Repr

/-- An operand as text gives it. -/
inductive RawOperand where
  | none
  | number (n : Nat)
  | quoted (ch : Char)
  | text (s : List Char)
deriving DecidableEq, Repr

/-- A space or a tab. -/
def isGap (ch : Char) : Bool := ch.toNat == 32 || ch.toNat == 9

/-- `;` starts a comment (rule R57). -/
def isComment (ch : Char) : Bool := ch.toNat == 59

/-- The single quotation mark. -/
def isQuote (ch : Char) : Bool := ch.toNat == 39

/-- The double quotation mark. -/
def isDoubleQuote (ch : Char) : Bool := ch.toNat == 34

/-- The value of a digit in base 10 or 16, if it is one. -/
def digitValue (base : Nat) (ch : Char) : Option Nat :=
  let n := ch.toNat
  let d := if 48 ≤ n ∧ n ≤ 57 then n - 48 else if 65 ≤ n ∧ n ≤ 70 then n - 55 else if 97 ≤ n ∧ n ≤ 102 then n - 87 else base
  if d < base then some d else none

/-- The number a sequence of digits writes, most significant digit first, added to what stands before it. -/
def digitsValue (base : Nat) : Nat → List Char → Option Nat
  | acc, [] => some acc
  | acc, ch :: rest =>
    match digitValue base ch with
    | some d => digitsValue base (acc * base + d) rest
    | none => none

/-- A number, "decimal, or hexadecimal with 0x" (rule R57). Leading zeros are read in both forms: DESIGN CHOICE (log 13). -/
def numberOf : List Char → Option Nat
  | [] => none
  | '0' :: 'x' :: ch :: rest => digitsValue 16 0 (ch :: rest)
  | ch :: rest => digitsValue 10 0 (ch :: rest)

/-- Whether a character belongs to a word: no gap and no comment sign. -/
def isWordChar (ch : Char) : Bool := !isGap ch && !isComment ch

/-- Reads the operand at the start of the text, and what is left after it. DESIGN CHOICE (log 13): rule R57 says that `;` starts a
comment and that a quoted character stands for its code point, and not which comes first; here a `;` between quotation marks
belongs to the quoted text, as a quotation mark of the other kind and a gap do, and starts no comment. -/
def readOperand (cs : List Char) : Except AsmRefusal (RawOperand × List Char) :=
  match cs with
  | [] => .ok (.none, [])
  | ch :: rest =>
    if isComment ch then .ok (.none, ch :: rest)
    else if isQuote ch then
      match rest with
      | c :: q :: left => if isQuote q then .ok (.quoted c, left) else .error .badOperand
      | _ => .error .badOperand
    else if isDoubleQuote ch then
      match rest.dropWhile (fun c => !isDoubleQuote c) with
      | _ :: left => .ok (.text (rest.takeWhile fun c => !isDoubleQuote c), left)
      | [] => .error .badOperand
    else
      match numberOf ((ch :: rest).takeWhile isWordChar) with
      | some n => .ok (.number n, (ch :: rest).dropWhile isWordChar)
      | none => .error .badOperand

/-- The line a mnemonic and an operand write (rules R57 to R59). DESIGN CHOICE (log 13): rule R57 gives the decimal and the `0x`
form for the number of FOLD alone; the number after RDW and after DRAW is read in the same two forms. -/
def lineOf (name : List Char) (operand : RawOperand) : Except AsmRefusal AsmLine :=
  if name = ['N', 'O', 'P'] then
    match operand with | .none => .ok .nop | _ => .error .badOperand
  else if name = ['C', 'L', 'E', 'A', 'R'] then
    match operand with | .none => .ok .clear | _ => .error .badOperand
  else if name = ['F', 'O', 'L', 'D'] then
    match operand with
    | .number n => .ok (.fold (.number n))
    | .quoted ch => .ok (.fold (.quoted ch))
    | _ => .error .badOperand
  else if name = ['N', 'E', 'X', 'T'] then
    match operand with | .none => .ok .next | _ => .error .badOperand
  else if name = ['R', 'D', 'W'] then
    match operand with | .number k => .ok (.rdw k) | _ => .error .badOperand
  else if name = ['R', 'D', 'I', 'D', 'X'] then
    match operand with | .none => .ok .rdidx | _ => .error .badOperand
  else if name = ['R', 'S', 'V', 'D', '6'] then
    match operand with | .none => .ok .rsvd6 | _ => .error .badOperand
  else if name = ['R', 'S', 'V', 'D', '7'] then
    match operand with | .none => .ok .rsvd7 | _ => .error .badOperand
  else if name = ['R', 'E', 'S', 'E', 'T'] then
    match operand with | .none => .ok .reset | _ => .error .badOperand
  else if name = ['S', 'E', 'E', 'D'] then
    match operand with | .text s => .ok (.seed s) | _ => .error .badOperand
  else if name = ['D', 'R', 'A', 'W'] then
    match operand with | .number n => .ok (.draw n) | _ => .error .badOperand
  else .error .unknownMnemonic

/-- Whether nothing but a comment is left on the line. -/
def onlyComment (cs : List Char) : Bool :=
  match cs.dropWhile isGap with
  | [] => true
  | ch :: _ => isComment ch

/-- Reads one line of text: `MNEMONIC [operand]`, then an optional comment (rule R57). DESIGN CHOICE (log 13): the rule is silent on
indentation and on gaps at the end; here any number of spaces and tabs may stand before the mnemonic, between it and its
operand, and after them. Where a line has several faults, the operand's reading is refused first, then the mnemonic or the
operand's kind, then text after the operand, then the operand's size. -/
def parseLine (text : List Char) : Except AsmRefusal AsmLine :=
  if onlyComment text then .ok .blank
  else
    let body := text.dropWhile isGap
    match readOperand ((body.dropWhile isWordChar).dropWhile isGap) with
    | .error r => .error r
    | .ok (operand, left) =>
      match lineOf (body.takeWhile isWordChar) operand with
      | .error r => .error r
      | .ok l =>
        if !onlyComment left then .error .trailingText
        else if l.wellFormed then .ok l
        else .error .operandTooLarge

end Sys2Proof.Machine
end

