-- ==== Sys2Proof/Machine/Binary64.lean ====
section
/-! DEFINITION. The host's arithmetic: IEEE 754 binary64, round to nearest, ties to even (rule R104, decision D23). None of it
is in the block (rule R5). A binary64 value is the exact rational it stands for. The format's numbers (53 significant bits,
least exponent -1022) are PRESUMED: the spec names the format and not them (log 9). -/

namespace Sys2Proof.Machine

/-- `n / d` rounded to a whole number, to nearest, ties to even. -/
def roundHalfEven (n d : Nat) : Nat :=
  let q := n / d
  let r := n % d
  if 2 * r < d then q else if d < 2 * r then q + 1 else if q % 2 = 0 then q else q + 1

/-- The greatest e with `2^e ≤ n / d`, for n and d not 0. -/
def floorLog2 (n d : Nat) : Int :=
  let e : Int := (Nat.log2 n : Int) - (Nat.log2 d : Int)
  if d * 2 ^ e.toNat ≤ n * 2 ^ (-e).toNat then e else e - 1

/-- The exponent of the last bit of the binary64 nearest to `n / d`: 52 bits below the first, or the subnormals' -1074. -/
def ulpExponent (n d : Nat) : Int := max (floorLog2 n d) (-1022) - 52

/-- The binary64 value nearest to q, ties to even, for q from 0 to below `2^1023` (rule R104). No host value is negative or as
large as that (rule R109). -/
def roundBinary64 (q : Rat) : Rat :=
  let n := q.num.natAbs
  let d := q.den
  if n = 0 then 0
  else
    let u := ulpExponent n d
    let m := roundHalfEven (n * 2 ^ (-u).toNat) (d * 2 ^ u.toNat)
    ((m * 2 ^ u.toNat : Nat) : Rat) / ((2 ^ (-u).toNat : Nat) : Rat)

/-- Binary64 multiplication. -/
def mul64 (a b : Rat) : Rat := roundBinary64 (a * b)

/-- Binary64 addition. -/
def add64 (a b : Rat) : Rat := roundBinary64 (a + b)

/-- The binary64 value of the literal 2.3 (rule R106; PRESUMED, log 9: a literal stands for the binary64 nearest to it). -/
def lit2p3 : Rat := roundBinary64 (23 / 10)

end Sys2Proof.Machine
end

