-- ==== Sys2Proof/Machine/Generate.lean ====
section
/-! DEFINITION. The host command sequences (spec/43_host_sequences.md): "host obligations, not block behaviour" (rule R100).
They drive the block's own step through `runCommands`. A string is the list of its Unicode scalar values (rule R102; log 8). -/

namespace Sys2Proof.Machine

/-- The options of `generate` with RB's defaults, size 8 and scale 4 (rule R107). An override is text the host does not read:
"passed through uninterpreted" (rule R105). -/
structure Options where
  seed : Option (List Char) := none
  size : Int := 8
  scale : Int := 4
  color : Option (List Char) := none
  bgColor : Option (List Char) := none
  spotColor : Option (List Char) := none
deriving DecidableEq, Repr

/-- The host's errors, raised "before it issues any command" (rules R103, R129). They are no exceptions of the block. -/
inductive HostError where
  /-- `size <= 0`. -/
  | invalidDimension
  /-- `scale <= 0`. -/
  | invalidScale
deriving DecidableEq, Repr

/-- Validation, size first (rule R103, decision D24). -/
def hostError (o : Options) : Option HostError :=
  if o.size ≤ 0 then some .invalidDimension else if o.scale ≤ 0 then some .invalidScale else none

/-- Whether a character is a hexadecimal digit. -/
def isHexDigit (ch : Char) : Bool := (digitValue 16 ch).isSome

/-- All the spec says of the fallback seed: "a non-empty string of hexadecimal digits" (rule R101). -/
def isFallbackSeed (s : List Char) : Bool := !s.isEmpty && s.all isHexDigit

/-- Seed resolution (rule R101): the supplied seed "if present and non-empty"; an explicitly empty one by EMPTY_SEED_POLICY; else
`fallback`, the host's own draw (decision D28; log 11: an argument, so a claim holds for every fallback seed). -/
def resolveSeed (p : HostParams) (fallback : List Char) (seed : Option (List Char)) : List Char :=
  match seed with
  | none => fallback
  | some [] =>
    match p.emptySeed with
    | .notSupplied => fallback
    | .zeroLength => []
  | some (ch :: rest) => ch :: rest

/-- A color as hue, saturation and lightness (rules R12, R104). -/
structure Hsl where
  hue : Int
  saturation : Rat
  lightness : Rat
deriving DecidableEq, Repr

/-- A palette slot's color: drawn by the host, or the caller's override verbatim (rule R105). -/
inductive SlotColor where
  | drawn (c : Hsl)
  | override (text : List Char)
deriving DecidableEq, Repr

/-- The color of six draws v1..v6 (rule R104): `floor(v1 * 360)`, `v2 * 60 + 40`, `(v3 + v4 + v5 + v6) * 25`, in binary64, left to
right. -/
def colorOf (v1 v2 v3 v4 v5 v6 : Word) : Hsl where
  hue := (mul64 (drawValue v1) 360).floor
  saturation := add64 (mul64 (drawValue v2) 60) 40
  lightness := mul64 (add64 (add64 (add64 (drawValue v3) (drawValue v4)) (drawValue v5)) (drawValue v6)) 25

/-- The color of a list of draws: its first six (rule R104: "exactly 6 NEXT commands"). -/
def colorOfDraws (vs : List Word) : Hsl :=
  colorOf (vs.getD 0 0#32) (vs.getD 1 0#32) (vs.getD 2 0#32) (vs.getD 3 0#32) (vs.getD 4 0#32) (vs.getD 5 0#32)

/-- One palette slot (rule R105): an override costs no command; otherwise `DRAW 6`. -/
def resolveSlot (override : Option (List Char)) (s : State) : Host.Outcome (SlotColor × State) Fault Refusal :=
  match override with
  | some text => .next (.override text, s)
  | none => andThen (drawMany 6 s) fun r => .next (.drawn (colorOfDraws r.1), r.2)

/-- The palette (rule R105). -/
structure Palette where
  foreground : SlotColor
  background : SlotColor
  spot : SlotColor
deriving DecidableEq, Repr

/-- Palette resolution: color, bgColor, spotColor, "in that fixed order" (rule R105). -/
def resolvePalette (o : Options) (s : State) : Host.Outcome (Palette × State) Fault Refusal :=
  andThen (resolveSlot o.color s) fun f =>
    andThen (resolveSlot o.bgColor f.2) fun b =>
      andThen (resolveSlot o.spotColor b.2) fun sp => .next (⟨f.1, b.1, sp.1⟩, sp.2)

/-- The value of a pixel: `floor(v * 2.3)` in binary64 (rule R106). -/
def pixelOf (v : Word) : Int := (mul64 (drawValue v) lit2p3).floor

/-- dataWidth = ceil(size / 2) (rule R106). -/
def dataWidth (size : Nat) : Nat := (size + 1) / 2

/-- mirrorWidth = size - dataWidth (rule R106). -/
def mirrorWidth (size : Nat) : Nat := size - dataWidth size

/-- A row from its draws, left to right, then its first mirrorWidth entries reversed (rule R106). -/
def gridRow (size : Nat) (draws : List Word) : List Int :=
  draws.map pixelOf ++ ((draws.map pixelOf).take (mirrorWidth size)).reverse

/-- `rows` rows of the grid, each from dataWidth draws, row-major (rule R106). -/
def gridRows (size : Nat) : Nat → State → Host.Outcome (List Int × State) Fault Refusal
  | 0, s => .next ([], s)
  | rows + 1, s =>
    andThen (drawMany (dataWidth size) s) fun r =>
      andThen (gridRows size rows r.2) fun g => .next (gridRow size r.1 ++ g.1, g.2)

/-- What `generate` returns (rule R107). -/
structure Identicon where
  grid : List Int
  palette : Palette
  outputDimension : Int
deriving DecidableEq, Repr

/-- The whole run on a block in state `s` (rule R107): validate, SEED, palette, grid, row by row. A failing call issues no
command (rule R103). -/
def generate (p : HostParams) (fallback : List Char) (o : Options) (s : State) :
    Except HostError (Host.Outcome (Identicon × State) Fault Refusal) :=
  match hostError o with
  | some e => .error e
  | none => .ok <|
    andThen (runCommands (seedCommands (charCodes p.charUnit (resolveSeed p fallback o.seed))) s) fun a =>
      andThen (resolvePalette o a.2) fun b =>
        andThen (gridRows o.size.toNat o.size.toNat b.2) fun c =>
          .next (⟨c.1, b.1, o.size * o.scale⟩, c.2)

/-- The grid of `generate`'s result, where it has one. -/
def gridOf (p : HostParams) (fallback : List Char) (o : Options) (s : State) : Option (List Int) :=
  match generate p fallback o s with
  | .ok (.next r) => some r.1.grid
  | .ok (.fault _) => none
  | .ok (.refused _) => none
  | .error _ => none

/-- How many palette slots have no override (rule R105: u). -/
def unsetSlots (o : Options) : Nat :=
  (if o.color.isNone then 1 else 0) + (if o.bgColor.isNone then 1 else 0) + (if o.spotColor.isNone then 1 else 0)

/-- `DRAW 6` for an unset slot, nothing for an override (rule R107). -/
def slotCommands (override : Option (List Char)) : List Instr := if override.isNone then drawCommands 6 else []

/-- GENERATE's command sequence as rule R107 lists it; none where validation fails (rule R103). -/
def generateCommands (p : HostParams) (fallback : List Char) (o : Options) : List Instr :=
  if (hostError o).isSome then []
  else
    seedCommands (charCodes p.charUnit (resolveSeed p fallback o.seed)) ++ slotCommands o.color ++ slotCommands o.bgColor
      ++ slotCommands o.spotColor ++ drawCommands (o.size.toNat * dataWidth o.size.toNat)

/-- The edges of a first run after power-up (rule R142): one with `rst` = 1, then the run's commands in order. -/
def bootAndGenerateCycles (p : HostParams) (fallback : List Char) (o : Options) : List PortIn :=
  .resetCycle :: (generateCommands p fallback o).map fun i => .ofCommand (encode i)

/-- The palette slots (rule R105). -/
inductive Slot where
  | foreground
  | background
  | spot
deriving DecidableEq, Repr

/-- The slot a pixel value is painted with (rule R110): 0 the background, 1 the foreground, "any other value" the spot. The
renderer itself is out of scope and issues no command. -/
def paintedSlot (pixel : Int) : Slot := if pixel = 0 then .background else if pixel = 1 then .foreground else .spot

end Sys2Proof.Machine
end

