-- ==== Sys2Proof/Machine/Instances.lean ====
section
/-! DEFINITION. Several instances of the block (rules R34, R130): they "share no state" and "do not signal one another". -/

namespace Sys2Proof.Machine

/-- A system of instances, each a block with its own ports; the place in the list is the reader's, not the hardware's: "The
instances have no identifiers" (rule R130). -/
abbrev System := List State

/-- A rising edge at instance k alone (rule R34). A number that names no instance does nothing. DESIGN CHOICE (log 12), safe:
one instance moves at a time. -/
def edgeAt (k : Nat) (sys : System) : Host.Outcome System Fault Refusal :=
  match sys[k]? with
  | some s => andThen (step s) fun t => .next (sys.set k t)
  | none => .next sys

end Sys2Proof.Machine
end

