-- ==== Sys2Proof/Safety.lean ====
section
/-! DEFINITION. What counts as a good run, in the terms the statements use: runs without IllegalCommand (rules R123, R146), and
the invariants of a state and of what the host still drives. -/

namespace Sys2Proof.Machine

/-- The edge presents a command with this op: `rst` = 0 and `cmd_valid` = 1 (rule R143). -/
def PortIn.presents (p : PortIn) (op : BitVec 3) : Bool := !p.rst && p.cmdValid && p.cmdOp == op

/-- The edge presents a reserved opcode (rule R54). -/
def PortIn.presentsReserved (p : PortIn) : Bool := p.presents 0b110#3 || p.presents 0b111#3

/-- The edge presents a FOLD (rule R53). -/
def PortIn.presentsFold (p : PortIn) : Bool := p.presents 0b010#3

/-- The edge presents a FOLD whose code is not 0 (rule R84: "any seed whose every character code is 0"). -/
def PortIn.presentsNonzeroFold (p : PortIn) : Bool := p.presentsFold && p.cmdData != 0#32

/-- Rule R54's duty, kept so far and to come: no IllegalCommand has happened since reset (ERR = 0, rule R123) and the host
drives no reserved opcode any more. -/
def Clean (s : State) : Prop := s.err = 0#1 ∧ ∀ p ∈ s.inputs, p.presentsReserved = false

/-- The drawing phase of a run (rule R83): every word and OUT has bit 31 = 0, and the host folds no more. -/
def Drawing (s : State) : Prop :=
  s.w0.msb = false ∧ s.w1.msb = false ∧ s.w2.msb = false ∧ s.w3.msb = false ∧ s.out.msb = false ∧
    ∀ p ∈ s.inputs, p.presentsFold = false

/-- The zero state (rule R84) with no code to come that could leave it: the words are 0, OUT holds at most a fold index, and
every FOLD still driven folds the code 0. -/
def ZeroSeeded (s : State) : Prop :=
  s.w0 = 0#32 ∧ s.w1 = 0#32 ∧ s.w2 = 0#32 ∧ s.w3 = 0#32 ∧ s.out.toNat < 4 ∧
    ∀ p ∈ s.inputs, p.presentsNonzeroFold = false

/-- How many FOLDs there have been since the last CLEAR or reset, after one more edge (rule R23). -/
def foldsAfter (n : Nat) (p : PortIn) : Nat :=
  if p.rst then 0 else if p.presents 0b001#3 then 0 else if p.presentsFold then n + 1 else n

/-- The block's own state, without what the host still drives (rule R20). -/
def State.block (s : State) : State := { s with inputs := [] }

end Sys2Proof.Machine
end

