-- ==== Sys2Proof/Certificates/Slice0/Obligations.lean ====
section
/-! DEFINITION. The statements about SeededRng, each a Prop for the provers. The machine has no memory (rule R40), so a frame
speaks of W, FIDX, OUT, ERR and the host's pending pins, which are all of State. -/

open Sys2Proof Sys2Proof.Machine

/-- A step runs the decoded instruction: where the pins present the fields of a word that decodes to i, the step is `exec i`
at the state with that edge consumed; and the host's `withFetchWord` presents exactly such a word. -/
def Obligations.StepRunsThePresentedCommand : Prop :=
  (∀ (s : State) (rest : List PortIn) (op : BitVec 3) (data : Word) (i : Instr),
    decode (commandOf op data) = i → i.wellFormed = true →
      step { s with inputs := ⟨false, true, op, data⟩ :: rest } = exec i { s with inputs := rest }) ∧
  ∀ (s : State) (w : Nat) (i : Instr), decodeTableWord 40 w = some i → step (s.withFetchWord 40 w) = exec i s

/-- Issuing a command in its canonical encoding runs it, and a word with any ignored bits runs what it decodes to. -/
def Obligations.IssuedCommandRuns : Prop :=
  (∀ (i : Instr) (s : State), issue i s = exec i s) ∧
  ∀ (w : Command) (s : State), step (s.present (.ofCommand w)) = exec (decode w) s

/-- R143. The pins of an edge are consumed by it, so no command is held over more than one edge. -/
def Obligations.RisingEdgeAppliesTheCommandOrHolds : Prop :=
  (∀ (s : State) (rest : List PortIn) (op : BitVec 3) (data : Word),
    step { s with inputs := ⟨false, true, op, data⟩ :: rest } =
      exec (decode (commandOf op data)) { s with inputs := rest }) ∧
  (∀ (s : State) (rest : List PortIn) (op : BitVec 3) (data : Word),
    step { s with inputs := ⟨false, false, op, data⟩ :: rest } = .next { s with inputs := rest }) ∧
  ∀ s : State, s.outData = s.out ∧ s.errPort = s.err ∧ s.cmdReady = true

/-- R55. An idle edge changes nothing of the block, as an edge that presents any NOP word does. -/
def Obligations.IdleEdgeIsIndistinguishableFromNop : Prop :=
  ∀ (s : State) (op : BitVec 3) (data nopData : Word),
    step (s.present ⟨false, false, op, data⟩) = .next s ∧
    step (s.present ⟨false, false, op, data⟩) = step (s.present (.ofCommand (commandOf 0b000#3 nopData)))

/-- The model's choice (log 1): where the host has no pins planned, the edge is idle. -/
def Obligations.NothingPlannedIsIdle : Prop :=
  ∀ s : State, s.inputs = [] → step s = .next s

/-- R140. Reset beats a command; holding it keeps the reset state; the first edge after it applies the first command; and
no other edge clears ERR. -/
def Obligations.ResetEdgeTakesTheResetState : Prop :=
  (∀ (s : State) (rest : List PortIn) (valid : Bool) (op : BitVec 3) (data : Word),
    step { s with inputs := ⟨true, valid, op, data⟩ :: rest } =
      .next { w0 := 0#32, w1 := 0#32, w2 := 0#32, w3 := 0#32, fidx := 0#2, out := 0#32, err := 0#1, inputs := rest }) ∧
  (∀ (s : State) (ps : List PortIn), ps ≠ [] → (∀ p ∈ ps, p.rst = true) →
    edges ps.length (s.presentAll ps) = .next { State.reset with inputs := s.inputs }) ∧
  (∀ (s : State) (ps : List PortIn) (w : Command), ps ≠ [] → (∀ p ∈ ps, p.rst = true) →
    edges (ps.length + 1) (s.presentAll (ps ++ [.ofCommand w])) =
      exec (decode w) { State.reset with inputs := s.inputs }) ∧
  (State.reset.outData = 0#32 ∧ State.reset.errPort = 0#1) ∧
  ∀ s t : State, step s = .next t → s.err = 1#1 → t.err = 0#1 → s.pins.rst = true

/-- R32. The reset values; W and FIDX after reset are those after a CLEAR, so that a FOLD straight after reset does what it
does after a CLEAR. -/
def Obligations.ResetValues : Prop :=
  (State.reset.w0 = 0#32 ∧ State.reset.w1 = 0#32 ∧ State.reset.w2 = 0#32 ∧ State.reset.w3 = 0#32 ∧
    State.reset.fidx = 0#2 ∧ State.reset.out = 0#32 ∧ State.reset.err = 0#1) ∧
  (∀ s : State, ∃ t, exec .clear s = .next t ∧ t.w0 = State.reset.w0 ∧ t.w1 = State.reset.w1 ∧ t.w2 = State.reset.w2 ∧
    t.w3 = State.reset.w3 ∧ t.fidx = State.reset.fidx) ∧
  ∀ (c : Word) (s : State), ∃ t u, afterCommands [.fold c] State.reset = .next t ∧
    afterCommands [.clear, .fold c] s = .next u ∧
    t.w0 = u.w0 ∧ t.w1 = u.w1 ∧ t.w2 = u.w2 ∧ t.w3 = u.w3 ∧ t.fidx = u.fidx

/-- R61. Exactly one row of the match and mask table admits a word, it is the decoded command's row, the decision depends on op
alone, and every word's command runs to a next state. -/
def Obligations.DecoderIsTotalOverTheOpcodeMap : Prop :=
  (∀ w : Command, ∃ r ∈ opcodeTable, r.admits w = true ∧ r.mnemonic = (decode w).mnemonic ∧
    ∀ r' ∈ opcodeTable, r'.admits w = true → r' = r) ∧
  (∀ w w' : Command, opField w = opField w' → (decode w).mnemonic = (decode w').mnemonic) ∧
  (∀ op : BitVec 3, ∃ r ∈ opcodeTable, opField r.pattern = op) ∧
  ∀ (w : Command) (s : State), ∃ t, exec (decode w) s = .next t

/-- Decode and encode agree, on every command with every operand and on every word; the number the opcode table writes for
the canonical word gives the command back. -/
def Obligations.DecodeAndEncodeAgree : Prop :=
  (∀ i : Instr, i.wellFormed = true → decode (encode i) = i) ∧
  (∀ w : Command, encode (decode w) = canonical w) ∧
  (∀ w w' : Command, decode w = decode w' ↔ canonical w = canonical w') ∧
  (∀ i : Instr, decodeTableWord 40 (encode i).toNat = some i) ∧
  ∀ w : Nat, 2 ^ 35 ≤ w → decodeNat w = .error .widerThanCommand

/-- R52. What each op reads of the data field; any value of the other bits gives the same command, and none raises anything. -/
def Obligations.IgnoredDataBitsAreDontCare : Prop :=
  (∀ c : Word, decode (commandOf 0b010#3 c) = .fold c) ∧
  (∀ data : Word, decode (commandOf 0b100#3 data) = .rdw (data.extractLsb' 0 2)) ∧
  (∀ data data' : Word, data.extractLsb' 0 2 = data'.extractLsb' 0 2 →
    decode (commandOf 0b100#3 data) = decode (commandOf 0b100#3 data')) ∧
  (∀ (op : BitVec 3) (data data' : Word), op ≠ 0b010#3 → op ≠ 0b100#3 →
    decode (commandOf op data) = decode (commandOf op data')) ∧
  (∀ (op : BitVec 3) (data : Word) (s : State), op.toNat < 6 →
    ∃ t, exec (decode (commandOf op data)) s = .next t ∧ t.err = s.err) ∧
  ∀ ch : Char, (codePoint ch).toNat = ch.toNat ∧ ch.toNat < 2 ^ 21

/-- Words written out from rules R53, R58 and section L2 of the test vectors decode to the commands they stand for. -/
def Obligations.SampleWordsDecode : Prop :=
  decode 0x000000000#35 = .nop ∧ decode 0x0DEADBEEF#35 = .nop ∧ decode 0x1FFFFFFFF#35 = .clear ∧
    decode 0x200000061#35 = .fold 0x61#32 ∧ decode 0x2FFC007FF#35 = .fold 0xFFC007FF#32 ∧ decode 0x300000000#35 = .next ∧
    decode 0x400000003#35 = .rdw 3#2 ∧ decode 0x4FFFFFFFE#35 = .rdw 2#2 ∧ decode 0x500000000#35 = .rdidx ∧
    decode 0x600000000#35 = .rsvd6 ∧ decode 0x712345678#35 = .rsvd7

/-- R9. The operators on 32-bit values, for every shift amount below 32. -/
def Obligations.OperatorsOnWords : Prop :=
  (∀ a b : Word, (a + b).toNat = (a.toNat + b.toNat) % 2 ^ 32 ∧ (a - b).toInt = (a.toInt - b.toInt).bmod (2 ^ 32)) ∧
  (∀ (a b : Word) (i : Nat), (a ^^^ b).getLsbD i = (a.getLsbD i != b.getLsbD i)) ∧
  (∀ (a : Word) (n : Nat), (shl a n).toNat = a.toNat * 2 ^ n % 2 ^ 32) ∧
  (∀ (a : Word) (n : Nat), n < 32 → (asr a n).toInt = a.toInt / 2 ^ n ∧
    (∀ i, i < 32 - n → (asr a n).getLsbD i = a.getLsbD (i + n)) ∧
    ∀ i, 32 - n ≤ i → i < 32 → (asr a n).getLsbD i = a.getLsbD 31) ∧
  ∀ (a : Word) (n : Nat), n < 32 → (∀ i, i < 32 - n → (lsr a n).getLsbD i = a.getLsbD (i + n)) ∧
    ∀ i, 32 - n ≤ i → (lsr a n).getLsbD i = false

/-- R90. NOP changes nothing, and any number of NOPs between other commands changes no result. -/
def Obligations.NopChangesNothing : Prop :=
  (∀ s : State, exec .nop s = .next s) ∧
  encode .nop = 0x000000000#35 ∧ (∀ data : Word, decode (commandOf 0b000#3 data) = .nop) ∧
  (∀ (op : BitVec 3) (data : Word) (s : State),
    issue .nop s = .next s ∧ step (s.present ⟨false, false, op, data⟩) = issue .nop s) ∧
  ∀ (before after : List Instr) (n : Nat) (s : State),
    afterCommands (before ++ List.replicate n .nop ++ after) s = afterCommands (before ++ after) s

/-- R70. CLEAR, with its corner cases and example. -/
def Obligations.ClearStartsASeed : Prop :=
  (∀ s : State, exec .clear s = .next { s with w0 := 0#32, w1 := 0#32, w2 := 0#32, w3 := 0#32, fidx := 0#2 }) ∧
  encode .clear = 0x100000000#35 ∧ (∀ data : Word, decode (commandOf 0b001#3 data) = .clear) ∧
  (∀ s : State, afterCommands [.clear, .clear] s = afterCommands [.clear] s) ∧
  exec .clear State.reset = .next State.reset ∧
  (∀ (cs : List Instr) (s : State), (∀ i ∈ cs, i ≠ .next ∧ i ≠ .rdidx ∧ ∀ k, i ≠ .rdw k) →
    ∃ t, afterCommands (.clear :: cs) s = .next t ∧ t.out = s.out) ∧
  ∀ s : State, exec .clear { s with w0 := 0#32, w1 := 0x00030B69#32, w2 := 0x0000181B#32, w3 := 0x00030360#32, fidx := 3#2 } =
    .next { s with w0 := 0#32, w1 := 0#32, w2 := 0#32, w3 := 0#32, fidx := 0#2 }

/-- R71. FOLD c for every c and every state, with its frame, its corner cases and its example. -/
def Obligations.FoldFoldsOneCode : Prop :=
  (∀ (c : Word) (s : State), ∃ t, exec (.fold c) s = .next t ∧
    t.getW s.fidx = (shl (s.getW s.fidx) 5 - s.getW s.fidx) + c ∧
    (∀ j : BitVec 2, j ≠ s.fidx → t.getW j = s.getW j) ∧
    t.fidx.toNat = (s.fidx.toNat + 1) % 4 ∧ t.out = s.out ∧ t.err = s.err ∧ t.inputs = s.inputs) ∧
  (∀ s : State, s.getW 0#2 = s.w0 ∧ s.getW 1#2 = s.w1 ∧ s.getW 2#2 = s.w2 ∧ s.getW 3#2 = s.w3) ∧
  (∀ c : Word, encode (.fold c) = 0x200000000#35 ||| c.setWidth 35 ∧ decode (commandOf 0b010#3 c) = .fold c) ∧
  (∀ w : Word, shl w 5 = shl (w &&& 0x07FFFFFF#32) 5) ∧
  ((shl 0x7FFFFFFF#32 5 - 0x7FFFFFFF#32) + 0#32 = 0x7FFFFFE1#32 ∧
    (shl 0xFFFFFFFF#32 5 - 0xFFFFFFFF#32) + 0#32 = 0xFFFFFFE1#32 ∧
    (shl 0x80000000#32 5 - 0x80000000#32) + 0#32 = 0x80000000#32 ∧
    (shl 0xFFFFFFFF#32 5 - 0xFFFFFFFF#32) + 0xFFFFFFFF#32 = 0xFFFFFFE0#32) ∧
  (∀ s : State, s.getW s.fidx = 0#32 → ∃ t, exec (.fold 0#32) s = .next t ∧ t.getW s.fidx = 0#32 ∧ t.fidx = s.fidx + 1#2) ∧
  (∀ (c : Word) (s : State), ∃ u t, exec .next s = .next u ∧ exec (.fold c) u = .next t ∧
    t.getW s.fidx = (shl (u.getW s.fidx) 5 - u.getW s.fidx) + c) ∧
  ∀ s : State, exec (.fold 0x65#32) { s with w0 := 0x61#32, fidx := 0#2 } = .next { s with w0 := 0x00000C24#32, fidx := 1#2 }

/-- R72. The fold is `31 * w + c` modulo 2^32, in the unsigned and in the signed reading. -/
def Obligations.FoldIsThirtyOneTimesPlusCode : Prop :=
  ∀ w c : Word, (shl w 5 - w) + c = 31#32 * w + c ∧
    ((shl w 5 - w) + c).toNat = (31 * w.toNat + c.toNat) % 2 ^ 32 ∧
    ((shl w 5 - w) + c).toInt = (31 * w.toInt + c.toInt).bmod (2 ^ 32)

/-- R80. NEXT for every state, with its frame, its corner cases and its example. -/
def Obligations.NextIsOneXorshiftStep : Prop :=
  (∀ s : State,
    let t := s.w0 ^^^ shl s.w0 11
    let n := s.w3 ^^^ asr s.w3 19 ^^^ t ^^^ asr t 8
    exec .next s = .next { s with w0 := s.w1, w1 := s.w2, w2 := s.w3, w3 := n, out := n }) ∧
  encode .next = 0x300000000#35 ∧ (∀ data : Word, decode (commandOf 0b011#3 data) = .next) ∧
  (∀ (x : Word) (n : Nat), 0 < n → n < 32 → x.msb = true → asr x n ≠ lsr x n) ∧
  (∀ x : Word, shl x 11 = shl (x &&& 0x001FFFFF#32) 11) ∧
  (∀ s : State, s.w0 = 0#32 → s.w1 = 0#32 → s.w2 = 0#32 → s.w3 = 0#32 → exec .next s = .next { s with out := 0#32 }) ∧
  (∃ s s' t : State, s ≠ s' ∧ exec .next s = .next t ∧ exec .next s' = .next t) ∧
  (∃ t, exec .next State.reset = .next t ∧ t.out = 0#32) ∧
  (∀ s : State, ∃ t, afterCommands [.clear, .next] s = .next t ∧ t.out = 0#32) ∧
  ∀ s : State, exec .next { s with w0 := 0x61#32, w1 := 0x62#32, w2 := 0x63#32, w3 := 0#32 } =
    .next { s with w0 := 0x62#32, w1 := 0x63#32, w2 := 0#32, w3 := 0x00030B69#32, out := 0x00030B69#32 }

/-- R91. RDW k for every k and every state, with its frame, its corner cases and its example. -/
def Obligations.RdwReadsAStateWord : Prop :=
  (∀ (k : BitVec 2) (s : State), exec (.rdw k) s = .next { s with out := s.getW k }) ∧
  (∀ s : State, exec (.rdw 0#2) s = .next { s with out := s.w0 } ∧ exec (.rdw 1#2) s = .next { s with out := s.w1 } ∧
    exec (.rdw 2#2) s = .next { s with out := s.w2 } ∧ exec (.rdw 3#2) s = .next { s with out := s.w3 }) ∧
  (∀ k : BitVec 2, encode (.rdw k) = 0x400000000#35 ||| k.setWidth 35) ∧
  (∀ data : Word, decode (commandOf 0b100#3 data) = .rdw (data.extractLsb' 0 2)) ∧
  decode (commandOf 0b100#3 0xFFFFFFFF#32) = .rdw 3#2 ∧
  (∀ s : State, ∃ t, exec .next s = .next t ∧ exec (.rdw 3#2) t = .next t) ∧
  ∀ s : State, exec (.rdw 1#2) { s with w0 := 0#32, w1 := 0x00030B69#32, w2 := 0x0000181B#32, w3 := 0x00030360#32 } =
    .next { s with w0 := 0#32, w1 := 0x00030B69#32, w2 := 0x0000181B#32, w3 := 0x00030360#32, out := 0x00030B69#32 }

/-- R92. RDIDX for every state, with its frame; after SEED and any number of draws it gives the seed's length modulo 4. -/
def Obligations.RdidxReadsTheFoldIndex : Prop :=
  (∀ s : State, exec .rdidx s = .next { s with out := s.fidx.setWidth 32 }) ∧
  (∀ s : State, (s.fidx.setWidth 32 : Word).extractLsb' 0 2 = s.fidx ∧ (s.fidx.setWidth 32 : Word).toNat < 4) ∧
  encode .rdidx = 0x500000000#35 ∧ (∀ data : Word, decode (commandOf 0b101#3 data) = .rdidx) ∧
  (∀ (codes : List Word) (n : Nat) (s : State), ∃ t,
    afterCommands (seedCommands codes ++ drawCommands n ++ [.rdidx]) s = .next t ∧ t.out.toNat = codes.length % 4) ∧
  ∀ s : State, ∃ t, afterCommands (seedCommands (['a', 'b', 'c', 'd', 'e'].map codePoint) ++ [.rdidx]) s = .next t ∧
    t.out = 0x00000001#32

/-- R122. Either reserved opcode, with any data, sets ERR and nothing else; every later command runs as it would have, ERR
aside. -/
def Obligations.IllegalCommandSetsErrAndNothingElse : Prop :=
  (∀ s : State, exec .rsvd6 s = .next { s with err := 1#1 } ∧ exec .rsvd7 s = .next { s with err := 1#1 }) ∧
  (∀ data : Word, decode (commandOf 0b110#3 data) = .rsvd6 ∧ decode (commandOf 0b111#3 data) = .rsvd7) ∧
  (∀ (before : List Instr) (r : Instr) (s : State), r = .rsvd6 ∨ r = .rsvd7 →
    ∃ t, afterCommands before s = .next t ∧ afterCommands (before ++ [r]) s = .next { t with err := 1#1 }) ∧
  ∀ (i : Instr) (s : State), ∃ t, exec i s = .next t ∧ exec i { s with err := 1#1 } = .next { t with err := 1#1 }

/-- R120. None of the six commands raises anything, in any state and for any operand: each runs to a next state with ERR as
before. -/
def Obligations.OwnCommandsRaiseNothing : Prop :=
  ∀ (i : Instr) (s : State), i ≠ .rsvd6 → i ≠ .rsvd7 → ∃ t, exec i s = .next t ∧ t.err = s.err

/-- R121. The one exception: an edge that applies a command turns ERR from 0 to 1 exactly where its op is 6 or 7, and the
code, 1, is what the `err` port then shows. -/
def Obligations.OnlyReservedOpcodesRaise : Prop :=
  (∀ (op : BitVec 3) (data : Word) (s : State), s.err = 0#1 →
    ∃ t, exec (decode (commandOf op data)) s = .next t ∧ (t.errPort = 1#1 ↔ op = 0b110#3 ∨ op = 0b111#3)) ∧
  (∀ (e : BlockException) (s : State), s.takeException e = { s with err := 1#1 } ∧
    (s.takeException e).errPort = e.code ∧ e.code = 1#1)

/-- R123. ERR over any sequence of edges: it stays 1 without a reset; without a reset it ends 1 where any edge presented a
reserved command; it ends 0 where it was 0 and none did; a reset edge clears it. -/
def Obligations.ErrIsStickyUntilReset : Prop :=
  (∀ (ps : List PortIn) (s : State), (∀ p ∈ ps, p.rst = false) → s.err = 1#1 →
    ∃ t, edges ps.length (s.presentAll ps) = .next t ∧ t.err = 1#1) ∧
  (∀ (ps : List PortIn) (s : State), (∀ p ∈ ps, p.rst = false) → (∃ p ∈ ps, p.presentsReserved = true) →
    ∃ t, edges ps.length (s.presentAll ps) = .next t ∧ t.err = 1#1) ∧
  (∀ (ps : List PortIn) (s : State), s.err = 0#1 → (∀ p ∈ ps, p.presentsReserved = false) →
    ∃ t, edges ps.length (s.presentAll ps) = .next t ∧ t.err = 0#1) ∧
  ∀ (p : PortIn) (s : State), p.rst = true → ∃ t, step (s.present p) = .next t ∧ t.err = 0#1

/-- Nothing stops the block: every step, and every number of edges, answers a next state. -/
def Obligations.NothingStopsTheBlock : Prop :=
  (∀ (i : Instr) (s : State), ∃ t, exec i s = .next t) ∧ (∀ s : State, ∃ t, step s = .next t) ∧
    ∀ (k : Nat) (s : State), ∃ t, edges k s = .next t

/-- What each command may change, and what each leaves alone, in one table (the access rights of the state). -/
def Obligations.OnlyTheNamedCommandsWriteEachRegister : Prop :=
  ∀ (i : Instr) (s : State), ∃ t, exec i s = .next t ∧ t.inputs = s.inputs ∧
    (i.mnemonic ≠ "CLEAR" → i.mnemonic ≠ "FOLD" → i.mnemonic ≠ "NEXT" →
      t.w0 = s.w0 ∧ t.w1 = s.w1 ∧ t.w2 = s.w2 ∧ t.w3 = s.w3) ∧
    (i.mnemonic ≠ "CLEAR" → i.mnemonic ≠ "FOLD" → t.fidx = s.fidx) ∧
    (i.mnemonic ≠ "NEXT" → i.mnemonic ≠ "RDW" → i.mnemonic ≠ "RDIDX" → t.out = s.out) ∧
    (i.mnemonic ≠ "RSVD6" → i.mnemonic ≠ "RSVD7" → t.err = s.err)

/-- No command reads OUT or ERR: with other values in them, every command makes the same words and FIDX, leaves the value of
OUT or writes the same one, and leaves ERR or sets it. -/
def Obligations.NoCommandReadsOutOrErr : Prop :=
  ∀ (i : Instr) (s : State) (o : Word) (e : BitVec 1), ∃ t t', exec i s = .next t ∧
    exec i { s with out := o, err := e } = .next t' ∧
    t'.w0 = t.w0 ∧ t'.w1 = t.w1 ∧ t'.w2 = t.w2 ∧ t'.w3 = t.w3 ∧ t'.fidx = t.fidx ∧ t'.inputs = t.inputs ∧
    (t'.out = t.out ∨ t.out = s.out ∧ t'.out = o) ∧ (t'.err = t.err ∨ t.err = s.err ∧ t'.err = e)

/-- FIDX counts the FOLD commands since the last CLEAR or reset, modulo 4, over any sequence of edges. -/
def Obligations.FidxCountsFoldsModuloFour : Prop :=
  ∀ (ps : List PortIn) (s : State) (n : Nat), s.fidx.toNat = n % 4 →
    ∃ t, edges ps.length (s.presentAll ps) = .next t ∧ t.fidx.toNat = ps.foldl foldsAfter n % 4

/-- Presenting a sequence of commands in advance gives the state that issuing them one at a time gives. -/
def Obligations.PresentingInAdvanceEqualsIssuing : Prop :=
  ∀ (cs : List Instr) (s : State),
    edges cs.length (s.presentAll (cs.map fun i => .ofCommand (encode i))) = afterCommands cs s

/-- R73. Seeding with any codes from any state: RB's loop, the closed form, FIDX, the frame, and the two examples. -/
def Obligations.SeedingFoldsEveryCode : Prop :=
  (∀ (codes : List Word) (s : State), ∃ r, runCommands (seedCommands codes) s = .next r ∧
    r.2.fidx.toNat = codes.length % 4 ∧ r.2.out = s.out ∧ r.2.err = s.err ∧ r.2.inputs = s.inputs ∧
    ∀ j : BitVec 2,
      r.2.getW j = codes.zipIdx.foldl (fun w ci => if ci.2 % 4 = j.toNat then (shl w 5 - w) + ci.1 else w) 0#32 ∧
      (let k := (List.range codes.length).countP fun i => i % 4 == j.toNat
       (r.2.getW j).toNat =
        (∑ m ∈ Finset.range k, (codes.getD (j.toNat + 4 * m) 0#32).toNat * 31 ^ (k - 1 - m)) % 2 ^ 32)) ∧
  (∀ s : State, afterCommands (seedCommands (['a', 'b', 'c', 'd', 'e'].map codePoint)) s =
    .next { s with w0 := 0x00000C24#32, w1 := 0x62#32, w2 := 0x63#32, w3 := 0x64#32, fidx := 1#2 }) ∧
  ∀ s : State, afterCommands (seedCommands (['t', 'e', 's', 't'].map codePoint)) s =
    .next { s with w0 := 0x74#32, w1 := 0x65#32, w2 := 0x73#32, w3 := 0x74#32, fidx := 0#2 }

/-- FOLD without CLEAR: straight after reset it leaves the words and FIDX it leaves after a CLEAR, and after any number of
draws it folds into the word FIDX named before them, of the stepped state. -/
def Obligations.FoldWithoutClear : Prop :=
  (∀ (codes : List Word) (s : State), ∃ t u, afterCommands (codes.map .fold) State.reset = .next t ∧
    afterCommands (seedCommands codes) s = .next u ∧
    t.w0 = u.w0 ∧ t.w1 = u.w1 ∧ t.w2 = u.w2 ∧ t.w3 = u.w3 ∧ t.fidx = u.fidx) ∧
  ∀ (n : Nat) (c : Word) (s : State), ∃ r t, drawMany n s = .next r ∧ exec (.fold c) r.2 = .next t ∧
    r.2.fidx = s.fidx ∧ t.getW s.fidx = (shl (r.2.getW s.fidx) 5 - r.2.getW s.fidx) + c ∧ t.fidx = s.fidx + 1#2 ∧
    ∀ j : BitVec 2, j ≠ s.fidx → t.getW j = r.2.getW j

/-- SEED forgets the past: the draws after seeding with the same codes are the same from any two states. -/
def Obligations.DrawsDependOnCodesAndCountOnly : Prop :=
  ∀ (codes : List Word) (n : Nat) (s s' : State), ∃ r r' d d',
    runCommands (seedCommands codes) s = .next r ∧ runCommands (seedCommands codes) s' = .next r' ∧
    drawMany n r.2 = .next d ∧ drawMany n r'.2 = .next d' ∧ d.1 = d'.1

/-- R59. DRAW n: n draws, each the output word of its NEXT, and one more draw adds one word at the end. -/
def Obligations.DrawIssuesNextCommands : Prop :=
  (∀ (u : CharUnit) (n : Nat), lineCommands u (.draw n) = List.replicate n .next) ∧ (∀ s : State, drawMany 0 s = .next ([], s)) ∧
  ∀ (n : Nat) (s : State), ∃ r t, drawMany n s = .next r ∧ r.1.length = n ∧ exec .next r.2 = .next t ∧
    drawMany (n + 1) s = .next (r.1 ++ [t.outData], t)

/-- R82. Arithmetic against logical shift, on the rule's two states. -/
def Obligations.ArithmeticShiftCases : Prop :=
  (∀ s : State, ∃ t, exec .next { s with w0 := 0#32, w1 := 0#32, w2 := 0#32, w3 := 0x80000000#32 } = .next t ∧
    asr 0x80000000#32 19 = 0xFFFFF000#32 ∧ t.out = 0x7FFFF000#32 ∧
    0x80000000#32 ^^^ lsr 0x80000000#32 19 = 0x80001000#32) ∧
  ∀ s : State, ∃ t, exec .next { s with w0 := 0x80000000#32, w1 := 0#32, w2 := 0#32, w3 := 0#32 } = .next t ∧
    0x80000000#32 ^^^ shl 0x80000000#32 11 = 0x80000000#32 ∧ asr 0x80000000#32 8 = 0xFF800000#32 ∧ t.out = 0x7F800000#32 ∧
    0x80000000#32 ^^^ lsr 0x80000000#32 8 = 0x80800000#32

/-- R83. The output never reaches 1, W[3] has bit 31 = 0 after one NEXT, and all four words have it after four. -/
def Obligations.OutputNeverReachesOne : Prop :=
  (∀ (x : Word) (k : Nat), (asr x k).getLsbD 31 = x.getLsbD 31 ∧ (x ^^^ asr x k).getLsbD 31 = false) ∧
  (∀ s : State, ∃ t, exec .next s = .next t ∧ t.out.getLsbD 31 = false ∧ t.out.toNat ≤ 0x7FFFFFFF ∧
    0 ≤ drawValue t.out ∧ drawValue t.out ≤ 1 - 1 / 2 ^ 31 ∧ drawValue t.out < 1) ∧
  ∀ (k : Nat) (s : State), ∃ r, drawMany k s = .next r ∧
    (1 ≤ k → r.2.w3.getLsbD 31 = false) ∧
    (4 ≤ k → ∀ j : BitVec 2, (r.2.getW j).getLsbD 31 = false ∧ 0 ≤ (r.2.getW j).toInt)

/-- R84. The zero state stays, with every draw 0; the rule's three ways to reach it. -/
def Obligations.ZeroStateIsAFixedPoint : Prop :=
  (∀ (n : Nat) (s : State), s.w0 = 0#32 → s.w1 = 0#32 → s.w2 = 0#32 → s.w3 = 0#32 →
    ∃ r, drawMany n s = .next r ∧ r.1 = List.replicate n 0#32 ∧
      r.2 = { s with out := if n = 0 then s.out else 0#32 }) ∧
  (∀ (codes : List Word) (s : State), (∀ c ∈ codes, c = 0#32) → ∃ t, afterCommands (seedCommands codes) s = .next t ∧
    t.w0 = 0#32 ∧ t.w1 = 0#32 ∧ t.w2 = 0#32 ∧ t.w3 = 0#32) ∧
  ∀ s : State, ∃ t, exec .next { s with w0 := 0xFFC007FF#32, w1 := 0#32, w2 := 0#32, w3 := 0#32 } = .next t ∧
    t.w0 = 0#32 ∧ t.w1 = 0#32 ∧ t.w2 = 0#32 ∧ t.w3 = 0#32

/-- R85. NEXT is not injective: the kernel of t XOR asr(t, 8), the inverse of w XOR shl(w, 11), and the states it merges. -/
def Obligations.NextIsNotInjective : Prop :=
  (∀ a b : Word, (a ^^^ b) ^^^ asr (a ^^^ b) 8 = (a ^^^ asr a 8) ^^^ (b ^^^ asr b 8)) ∧
  (∀ t : Word, t ^^^ asr t 8 = 0#32 ↔ t = 0x00000000#32 ∨ t = 0xFFFFFFFF#32) ∧
  (∀ w : Word, let t := w ^^^ shl w 11; t ^^^ shl t 11 ^^^ shl t 22 = w) ∧
  (∀ t : Word, let w := t ^^^ shl t 11 ^^^ shl t 22; w ^^^ shl w 11 = t) ∧
  0xFFC007FF#32 ^^^ shl 0xFFC007FF#32 11 = 0xFFFFFFFF#32 ∧
  (∀ s : State, ∃ t, exec .next s = .next t ∧ exec .next { s with w0 := s.w0 ^^^ 0xFFC007FF#32 } = .next t) ∧
  (∀ (s : State) (x : Word), x = 0x00000000#32 ∨ x = 0xFFC007FF#32 →
    exec .next { s with w0 := x, w1 := 0x11#32, w2 := 0x22#32, w3 := 0x33#32 } =
      .next { s with w0 := 0x11#32, w1 := 0x22#32, w2 := 0x33#32, w3 := 0x33#32, out := 0x33#32 }) ∧
  ∀ s : State, exec .next { s with w0 := 0xFFC007FF#32, w1 := 0#32, w2 := 0#32, w3 := 0#32 } =
    .next { s with w0 := 0#32, w1 := 0#32, w2 := 0#32, w3 := 0#32, out := 0#32 }

/-- What one step depends on, the first four outputs after seeding, and the one-character seed "a". (The spec's remark that a
one-character seed gives four equal outputs is stated for that seed: log 15.) -/
def Obligations.DependenciesOfOneStep : Prop :=
  (∀ s s' : State, s.w0 = s'.w0 → s.w3 = s'.w3 → ∃ t t', exec .next s = .next t ∧ exec .next s' = .next t' ∧
    t.w3 = t'.w3 ∧ t.out = t.w3) ∧
  (∀ s : State, ∃ t, exec .next s = .next t ∧ t.w0 = s.w1 ∧ t.w1 = s.w2 ∧ t.w2 = s.w3) ∧
  (∀ s : State,
    let o1 := xorshiftN s.w0 s.w3
    let o2 := xorshiftN s.w1 o1
    let o3 := xorshiftN s.w2 o2
    let o4 := xorshiftN s.w3 o3
    drawMany 4 s = .next ([o1, o2, o3, o4], { s with w0 := o1, w1 := o2, w2 := o3, w3 := o4, out := o4 })) ∧
  ∀ s : State, ∃ t r, afterCommands (seedCommands (['a'].map codePoint)) s = .next t ∧
    t.w0 = 0x61#32 ∧ t.w1 = 0#32 ∧ t.w2 = 0#32 ∧ t.w3 = 0#32 ∧ xorshiftT t.w0 = 0x00030861#32 ∧
    drawMany 4 t = .next r ∧ r.1 = List.replicate 4 0x00030B69#32

/-- A step keeps the drawing phase: with no FOLD to come, the words and OUT keep bit 31 = 0 (rule R83's fact about every
state that meets it, not only after NEXT). -/
def Obligations.StepKeepsDrawing : Prop :=
  ∀ s t : State, Drawing s → step s = .next t → Drawing t

/-- A step keeps a clean run clean: with no reserved opcode to come, ERR stays 0. -/
def Obligations.StepKeepsClean : Prop :=
  ∀ s t : State, Clean s → step s = .next t → Clean t

/-- A step keeps the zero state where every code still to come is 0: the words stay 0 and OUT holds at most a fold index. -/
def Obligations.StepKeepsZeroSeeded : Prop :=
  ∀ s t : State, ZeroSeeded s → step s = .next t → ZeroSeeded t

/-- The three invariants hold at reset, whatever the host will drive that they allow. -/
def Obligations.InvariantsHoldAtReset : Prop :=
  (∀ ps : List PortIn, (∀ p ∈ ps, p.presentsFold = false) → Drawing (State.reset.presentAll ps)) ∧
  (∀ ps : List PortIn, (∀ p ∈ ps, p.presentsReserved = false) → Clean (State.reset.presentAll ps)) ∧
  (∀ ps : List PortIn, (∀ p ∈ ps, p.presentsNonzeroFold = false) → ZeroSeeded (State.reset.presentAll ps)) ∧
  Drawing State.reset ∧ Clean State.reset ∧ ZeroSeeded State.reset

/-- An edge at one instance changes no other, reads no other, and edges at two instances commute. (That the instances stand
in a list and move one at a time is the model's choice: log 12.) -/
def Obligations.InstancesShareNothing : Prop :=
  (∀ (k : Nat) (sys : System), ∃ sys', edgeAt k sys = .next sys' ∧ sys'.length = sys.length ∧
    ∀ j, j ≠ k → sys'[j]? = sys[j]?) ∧
  (∀ (k : Nat) (sys : System) (s t : State), sys[k]? = some s → step s = .next t →
    ∃ sys', edgeAt k sys = .next sys' ∧ sys'[k]? = some t) ∧
  ∀ (j k : Nat) (sys : System), j ≠ k → andThen (edgeAt j sys) (edgeAt k) = andThen (edgeAt k sys) (edgeAt j)

/-- The value next() returns is the exact quotient of OUT by 2^31, which binary64 holds without rounding, whether it is
divided by 2^31 or multiplied by 2^-31. (It rests on log 9: the binary64 format.) -/
def Obligations.ReturnedValueIsExact : Prop :=
  ∀ v : Word, drawValue v = (v.toNat : Rat) / 2147483648 ∧ roundBinary64 ((v.toNat : Rat) / 2147483648) = drawValue v ∧
    mul64 (v.toNat : Rat) (1 / 2 ^ 31) = drawValue v ∧ drawValue v * 2 ^ 31 = (v.toNat : Rat)

/-- R58. `SEED "s"` is CLEAR and one FOLD per character code of s in order, under either value of the host's CHAR_UNIT (R102),
CLEAR alone for the empty string, with the rule's example and its encoding. -/
def Obligations.SeedLineStandsForClearAndFolds : Prop :=
  (∀ (u : CharUnit) (s : List Char), lineCommands u (.seed s) = .clear :: (charCodes u s).map .fold) ∧
  (∀ s : List Char, charCodes .codePoint s = s.map fun ch => BitVec.ofNat 32 ch.toNat) ∧
  ∀ u : CharUnit, lineCommands u (.seed []) = [.clear] ∧
    lineCommands u (.seed ['a', 'b', 'c']) = [.clear, .fold 0x61#32, .fold 0x62#32, .fold 0x63#32] ∧
    (lineCommands u (.seed ['a', 'b', 'c'])).map encode = [0x100000000#35, 0x200000061#35, 0x200000062#35, 0x200000063#35]

/-- A line's edges: each presents (rst = 0, cmd_valid = 1) the canonical word of one of its commands, in order, and RESET is one
edge with rst = 1. What each line stands for, its number operand whole, and its word in 9 hex digits. Reading text is the
model's choice in its details (log 13): what is read is well formed, and six lines of the spec's programs read as they should. -/
def Obligations.AssemblerLinesEncodeTheirOperands : Prop :=
  (∀ (u : CharUnit) (l : AsmLine), l ≠ .reset →
    lineCycles u l = (lineCommands u l).map (fun i => PortIn.ofCommand (encode i)) ∧
    (lineCycles u l).map (fun p => decode p.command) = lineCommands u l ∧
    ∀ p ∈ lineCycles u l, p.rst = false ∧ p.cmdValid = true ∧ canonical p.command = p.command) ∧
  (∀ u : CharUnit, lineCycles u .reset = [⟨true, false, 0#3, 0#32⟩] ∧ lineCycles u .blank = []) ∧
  (∀ u : CharUnit, lineCommands u .nop = [.nop] ∧ lineCommands u .clear = [.clear] ∧ lineCommands u .next = [.next] ∧
    lineCommands u .rdidx = [.rdidx] ∧ lineCommands u .rsvd6 = [.rsvd6] ∧ lineCommands u .rsvd7 = [.rsvd7]) ∧
  (∀ (u : CharUnit) (n : Nat), (AsmLine.fold (.number n)).wellFormed = true →
    ∃ c : Word, lineCommands u (.fold (.number n)) = [.fold c] ∧ c.toNat = n) ∧
  (∀ (u : CharUnit) (k : Nat), (AsmLine.rdw k).wellFormed = true →
    ∃ j : BitVec 2, lineCommands u (.rdw k) = [.rdw j] ∧ j.toNat = k) ∧
  (∀ (u : CharUnit) (ch : Char), ∃ c : Word, lineCommands u (.fold (.quoted ch)) = [.fold c] ∧ c.toNat = ch.toNat) ∧
  (∀ w : Command, (hexOfCommand w).length = 9 ∧ digitsValue 16 0 (hexOfCommand w) = some w.toNat) ∧
  (∀ (text : List Char) (l : AsmLine), parseLine text = .ok l → l.wellFormed = true) ∧
  parseLine "RESET".toList = .ok .reset ∧ parseLine "CLEAR ; SEED \"abc\" begins".toList = .ok .clear ∧
  parseLine "FOLD 'a'".toList = .ok (.fold (.quoted 'a')) ∧
  parseLine "FOLD 0xFFC007FF".toList = .ok (.fold (.number 0xFFC007FF)) ∧
  parseLine "RDW 3".toList = .ok (.rdw 3) ∧ parseLine "SEED \"abc\"".toList = .ok (.seed ['a', 'b', 'c']) ∧
  hexOfCommand (encode (.fold 0xFFC007FF#32)) = "2FFC007FF".toList

/-- Seed resolution under both policies. (The fallback seed is an argument: log 11.) -/
def Obligations.SeedResolution : Prop :=
  (∀ (p : HostParams) (fb : List Char), resolveSeed p fb none = fb) ∧
  (∀ (p : HostParams) (fb : List Char) (ch : Char) (rest : List Char), resolveSeed p fb (some (ch :: rest)) = ch :: rest) ∧
  (∀ (p : HostParams) (fb : List Char), p.emptySeed = .notSupplied → resolveSeed p fb (some []) = fb) ∧
  (∀ (p : HostParams) (fb : List Char), p.emptySeed = .zeroLength → resolveSeed p fb (some []) = []) ∧
  ({} : HostParams).emptySeed = .notSupplied ∧
  ∀ (p : HostParams) (fb : List Char) (seed : Option (List Char)), p.emptySeed = .notSupplied → isFallbackSeed fb = true →
    resolveSeed p fb seed ≠ []

/-- One code per scalar value under CODE_POINT; under UTF16_UNIT one per code unit, two surrogates above U+FFFF; the two
agree below. (The surrogate arithmetic is the model's: log 10; a string's form: log 8.) -/
def Obligations.CharacterCodes : Prop :=
  (∀ s : List Char, (charCodes .codePoint s).map BitVec.toNat = s.map Char.toNat) ∧
  (∀ s : List Char, ∀ c ∈ charCodes .codePoint s, c.toNat ≤ 0x10FFFF) ∧
  (∀ s : List Char, ∀ c ∈ charCodes .utf16Unit s, c.toNat ≤ 0xFFFF) ∧
  (∀ s : List Char, (∀ ch ∈ s, ch.toNat < 0x10000) → charCodes .utf16Unit s = charCodes .codePoint s) ∧
  (∀ ch : Char, 0x10000 ≤ ch.toNat → ∃ hi lo : Word, charCodes .utf16Unit [ch] = [hi, lo] ∧
    0xD800 ≤ hi.toNat ∧ hi.toNat < 0xDC00 ∧ 0xDC00 ≤ lo.toNat ∧ lo.toNat < 0xE000 ∧
    ch.toNat = 0x10000 + (hi.toNat - 0xD800) * 0x400 + (lo.toNat - 0xDC00)) ∧
  (∀ (u : CharUnit) (s s' : List Char), charCodes u (s ++ s') = charCodes u s ++ charCodes u s') ∧
  ({} : HostParams).charUnit = .codePoint

/-- R103. Validation comes before any command, size first; size 0 and -1 both fail. -/
def Obligations.ValidationBeforeAnyCommand : Prop :=
  (∀ (p : HostParams) (fb : List Char) (o : Options) (s : State), o.size ≤ 0 →
    generate p fb o s = .error .invalidDimension ∧ generateCommands p fb o = []) ∧
  (∀ (p : HostParams) (fb : List Char) (o : Options) (s : State), 0 < o.size → o.scale ≤ 0 →
    generate p fb o s = .error .invalidScale ∧ generateCommands p fb o = []) ∧
  ∀ (p : HostParams) (fb : List Char) (o : Options) (s : State),
    generate p fb { o with size := 0 } s = .error .invalidDimension ∧
    generate p fb { o with size := -1 } s = .error .invalidDimension

/-- A color draw issues exactly six NEXT commands, draw 1 for the hue, draw 2 for the saturation and draws 3 to 6 for the
lightness, and its value is exact. Rule R104 says that only the × 25, the × 60, the + 40 and the × 360 round: these are the
operations whose exact result could need rounding, and on every draw (a multiple of 2^-31 below 1) their rounding is the
identity, so that nothing but the floor of the hue takes a value away from the exact one. (It rests on log 9: the binary64
format; log 19 reads the sentence.) -/
def Obligations.ColorDrawIsExact : Prop :=
  (∀ s : State, ∃ v1 v2 v3 v4 v5 v6 t, drawMany 6 s = .next ([v1, v2, v3, v4, v5, v6], t) ∧
    resolveSlot none s = .next (.drawn (colorOf v1 v2 v3 v4 v5 v6), t) ∧
    afterCommands (List.replicate 6 .next) s = .next t ∧
    v1.msb = false ∧ v2.msb = false ∧ v3.msb = false ∧ v4.msb = false ∧ v5.msb = false ∧ v6.msb = false) ∧
  ∀ v1 v2 v3 v4 v5 v6 : Word, v1.msb = false → v2.msb = false → v3.msb = false → v4.msb = false → v5.msb = false →
    v6.msb = false →
    (colorOf v1 v2 v3 v4 v5 v6).hue = (v1.toNat * 360 / 2 ^ 31 : Nat) ∧
    (colorOf v1 v2 v3 v4 v5 v6).saturation = drawValue v2 * 60 + 40 ∧
    (colorOf v1 v2 v3 v4 v5 v6).lightness = (drawValue v3 + drawValue v4 + drawValue v5 + drawValue v6) * 25

/-- An override is used verbatim and costs no command; the palette costs 6 NEXT commands per unset slot, in the order
color, bgColor, spotColor. -/
def Obligations.PaletteResolution : Prop :=
  (∀ (text : List Char) (s : State), resolveSlot (some text) s = .next (.override text, s)) ∧
  (∀ s : State, ∃ r, drawMany 6 s = .next r ∧ resolveSlot none s = .next (.drawn (colorOfDraws r.1), r.2)) ∧
  (∀ (o : Options) (s : State), ∃ f s1 b s2 q s3, resolveSlot o.color s = .next (f, s1) ∧
    resolveSlot o.bgColor s1 = .next (b, s2) ∧ resolveSlot o.spotColor s2 = .next (q, s3) ∧
    resolvePalette o s = .next (⟨f, b, q⟩, s3)) ∧
  (∀ (o : Options) (s : State), ∃ pal t, resolvePalette o s = .next (pal, t) ∧
    afterCommands (drawCommands (6 * unsetSlots o)) s = .next t) ∧
  ∀ o : Options, unsetSlots o ≤ 3

/-- The grid of size * size pixels takes size * ceil(size / 2) draws; the left part of a row holds the pixels of the row's
draws, left to right, and every row is a palindrome. (A pixel's value rests on log 9: the binary64 format and the literal 2.3.) -/
def Obligations.GridHoldsTheDrawsAndTheirMirror : Prop :=
  (∀ (size : Nat) (s : State), ∃ d t g, drawMany (size * ((size + 1) / 2)) s = .next (d, t) ∧
    gridRows size size s = .next (g, t) ∧ g.length = size * size ∧
    (∀ r x : Nat, r < size → x < (size + 1) / 2 → g[r * size + x]? = (d[r * ((size + 1) / 2) + x]?).map pixelOf) ∧
    ∀ r x : Nat, r < size → x < size → g[r * size + x]? = g[r * size + (size - 1 - x)]?) ∧
  (∀ v : Word, pixelOf v = (roundBinary64 ((v.toNat : Rat) / 2 ^ 31 * roundBinary64 (23 / 10))).floor) ∧
  dataWidth 1 = 1 ∧ mirrorWidth 1 = 0

/-- The whole run: where its palette and grid come from, its result's dimension, its command sequence and counts, and that it
leaves the block in the state that issuing exactly those commands leaves. A first run after power-up is an edge with rst = 1
and then those commands: from any state it ends where they end from the reset state (R140, R142). That the CLEAR is issued there
too, where R142 lets it be left out, is log 18. (Strings are lists of scalar values: log 8.) -/
def Obligations.GenerateIssuesTheListedCommands : Prop :=
  (∀ (p : HostParams) (fb : List Char) (o : Options) (s : State), 0 < o.size → 0 < o.scale →
    ∃ x t a b, generate p fb o s = .ok (.next (x, t)) ∧ x.outputDimension = o.size * o.scale ∧
      afterCommands (generateCommands p fb o) s = .next t ∧
      afterCommands (seedCommands (charCodes p.charUnit (resolveSeed p fb o.seed))) s = .next a ∧
      resolvePalette o a = .next (x.palette, b) ∧ gridRows o.size.toNat o.size.toNat b = .next (x.grid, t)) ∧
  (∀ (p : HostParams) (fb : List Char) (o : Options), 0 < o.size → 0 < o.scale →
    let codes := charCodes p.charUnit (resolveSeed p fb o.seed)
    generateCommands p fb o =
      .clear :: codes.map .fold ++ List.replicate (if o.color = none then 6 else 0) .next
        ++ List.replicate (if o.bgColor = none then 6 else 0) .next
        ++ List.replicate (if o.spotColor = none then 6 else 0) .next
        ++ List.replicate (o.size.toNat * ((o.size.toNat + 1) / 2)) .next ∧
    (generateCommands p fb o).count .clear = 1 ∧
    (generateCommands p fb o).countP (fun i => i.mnemonic == "FOLD") = codes.length ∧
    (generateCommands p fb o).count .next = 6 * unsetSlots o + o.size.toNat * ((o.size.toNat + 1) / 2)) ∧
  (∀ (p : HostParams) (fb : List Char) (o : Options) (s : State), ∃ t,
    edges (bootAndGenerateCycles p fb o).length (s.presentAll (bootAndGenerateCycles p fb o)) = .next t ∧
    afterCommands (generateCommands p fb o) { State.reset with inputs := s.inputs } = .next t ∧
    ((bootAndGenerateCycles p fb o).map PortIn.rst).headD false = true) ∧
  ({} : Options).size = 8 ∧ ({} : Options).scale = 4

/-- The grid is a function of the seed, the size and the number of unset slots; the spec's three grids for seed "abc" and
size 4. (A pixel's value rests on log 9, a string's form on log 8.) -/
def Obligations.GridDependsOnSeedSizeAndUnsetSlots : Prop :=
  (∀ (p : HostParams) (fb : List Char) (o o' : Options) (s s' : State), 0 < o.size → 0 < o.scale → 0 < o'.scale →
    o.seed = o'.seed → o.size = o'.size → unsetSlots o = unsetSlots o' →
    ∃ g, gridOf p fb o s = some g ∧ gridOf p fb o' s' = some g) ∧
  gridOf {} [] { seed := some ['a', 'b', 'c'], size := 4 } State.reset = some [1, 0, 0, 1, 1, 2, 2, 1, 0, 1, 1, 0, 0, 0, 0, 0] ∧
  gridOf {} [] { seed := some ['a', 'b', 'c'], size := 4, spotColor := some "#fff".toList } State.reset =
    some [0, 0, 0, 0, 0, 1, 1, 0, 0, 1, 1, 0, 1, 0, 0, 1] ∧
  gridOf {} [] { seed := some ['a', 'b', 'c'], size := 4, color := some "#123456".toList } State.reset =
    some [0, 0, 0, 0, 0, 1, 1, 0, 0, 1, 1, 0, 1, 0, 0, 1] ∧
  ∀ (p : HostParams) (fb : List Char) (o : Options) (s : State), 0 < o.size → 0 < o.scale →
    ∃ x t, generate p fb o s = .ok (.next (x, t)) ∧
      (generateCommands p fb o).count .next = 6 * unsetSlots o + o.size.toNat * ((o.size.toNat + 1) / 2)

/-- The ranges of hue, saturation, lightness and pixels, for every draw the block can give (bit 31 = 0), for every pixel that
generate returns and for every drawn slot of the palette it returns. (They rest on log 9: the binary64 format and the literal 2.3.) -/
def Obligations.HostValueRanges : Prop :=
  (∀ v1 v2 v3 v4 v5 v6 : Word, v1.msb = false → v2.msb = false → v3.msb = false → v4.msb = false → v5.msb = false →
    v6.msb = false →
    let c := colorOf v1 v2 v3 v4 v5 v6
    0 ≤ c.hue ∧ c.hue ≤ 359 ∧ 40 ≤ c.saturation ∧ c.saturation < 100 ∧ 0 ≤ c.lightness ∧ c.lightness < 100) ∧
  (∀ v : Word, v.msb = false → pixelOf v = 0 ∨ pixelOf v = 1 ∨ pixelOf v = 2) ∧
  (∀ (p : HostParams) (fb : List Char) (o : Options) (s : State), 0 < o.size → 0 < o.scale →
    ∃ g, gridOf p fb o s = some g ∧ ∀ x ∈ g, x = 0 ∨ x = 1 ∨ x = 2) ∧
  ∀ (p : HostParams) (fb : List Char) (o : Options) (s : State), 0 < o.size → 0 < o.scale →
    ∃ x t, generate p fb o s = .ok (.next (x, t)) ∧
      ∀ c : Hsl, x.palette.foreground = .drawn c ∨ x.palette.background = .drawn c ∨ x.palette.spot = .drawn c →
        0 ≤ c.hue ∧ c.hue ≤ 359 ∧ 40 ≤ c.saturation ∧ c.saturation < 100 ∧ 0 ≤ c.lightness ∧ c.lightness < 100
end

