-- ==== Sys2Proof/Laws/Assembler.lean ====
section
/-! SUPPORT. The small lemmas of the assembler's numbers: reading a digit back, reading digits one at a time. -/

namespace Sys2Proof.Machine

/-- A hexadecimal digit reads back as the number it was written for. -/
@[simp] theorem digitValue_hexChar {n : Nat} (h : n < 16) : digitValue 16 (hexChar n) = some n := by
  interval_cases n <;> decide

/-- Digits are read most significant first, each one adding to the base times what stands before it. -/
@[simp] theorem digitsValue_nil (base acc : Nat) : digitsValue base acc [] = some acc := rfl

theorem digitsValue_cons {base acc d : Nat} {ch : Char} (rest : List Char) (h : digitValue base ch = some d) :
    digitsValue base acc (ch :: rest) = digitsValue base (acc * base + d) rest := by
  simp [digitsValue, h]

end Sys2Proof.Machine
end

