-- ==== Sys2Proof/Laws/Binary64.lean ====
section
/-! SUPPORT. What binary64 rounding does: it keeps every value of at most 53 significant bits, and it moves no value by more
than one part in 2^52 (and never below 0). -/

namespace Sys2Proof.Machine

/-- A quotient without remainder is not rounded. -/
theorem roundHalfEven_mul_right (q d : Nat) (hd : 0 < d) : roundHalfEven (q * d) d = q := by
  simp [roundHalfEven, hd, Nat.mul_div_cancel _ hd]

/-- Rounding to a whole number goes up by less than 1. -/
theorem roundHalfEven_le (n d : Nat) : roundHalfEven n d ≤ n / d + 1 := by
  simp only [roundHalfEven]
  split
  · omega
  · split
    · omega
    · split <;> omega

/-- The exponent of a number over a power of two. -/
theorem floorLog2_two_pow (n c : Nat) (hn : n ≠ 0) : floorLog2 n (2 ^ c) = (Nat.log2 n : Int) - c := by
  have hl : 2 ^ Nat.log2 n ≤ n := Nat.log2_self_le hn
  have h : 2 ^ c * 2 ^ ((Nat.log2 n : Int) - c).toNat ≤ n * 2 ^ (-((Nat.log2 n : Int) - c)).toNat := by
    rcases Nat.le_total c (Nat.log2 n) with hc | hc
    · have h1 : ((Nat.log2 n : Int) - c).toNat = Nat.log2 n - c := by omega
      have h2 : (-((Nat.log2 n : Int) - c)).toNat = 0 := by omega
      rw [h1, h2, ← pow_add, Nat.add_sub_cancel' hc]
      simpa using hl
    · have h1 : ((Nat.log2 n : Int) - c).toNat = 0 := by omega
      have h2 : (-((Nat.log2 n : Int) - c)).toNat = c - Nat.log2 n := by omega
      rw [h1, h2, pow_zero, mul_one]
      calc 2 ^ c = 2 ^ Nat.log2 n * 2 ^ (c - Nat.log2 n) := by rw [← pow_add, Nat.add_sub_cancel' hc]
        _ ≤ n * 2 ^ (c - Nat.log2 n) := Nat.mul_le_mul_right _ hl
  simp only [floorLog2, Nat.log2_two_pow]
  rw [if_pos h]

/-- Binary64 holds `k / 2^b` exactly, for k below `2^53` (and b within the exponent's range). -/
theorem roundBinary64_of_dyadic (k b : Nat) (hk : k < 2 ^ 53) (hb : b ≤ 1000) :
    roundBinary64 ((k : Rat) / 2 ^ b) = (k : Rat) / 2 ^ b := by
  generalize hq : (k : Rat) / 2 ^ b = q
  have hq0 : 0 ≤ q := by rw [← hq]; positivity
  have hnum : (q.num.natAbs : Int) = q.num := by
    rw [Int.natCast_natAbs, abs_of_nonneg (Rat.num_nonneg.mpr hq0)]
  have hqe : q = (q.num.natAbs : Rat) / (q.den : Rat) := by
    conv_lhs => rw [← Rat.num_div_den q]
    rw [← hnum]; simp
  have hd0 : (q.den : Rat) ≠ 0 := by exact_mod_cast q.den_nz
  have hcross : q.num.natAbs * 2 ^ b = k * q.den := by
    have h1 : (q.num.natAbs : Rat) / q.den = (k : Rat) / 2 ^ b := by rw [← hqe, hq]
    rw [div_eq_div_iff hd0 (by positivity)] at h1
    exact_mod_cast h1
  have hcop : Nat.Coprime q.den q.num.natAbs := q.reduced.symm
  have hdvd : q.den ∣ 2 ^ b := hcop.dvd_of_dvd_mul_left ⟨k, by rw [hcross, Nat.mul_comm]⟩
  obtain ⟨c, hcb, hc⟩ := (Nat.dvd_prime_pow Nat.prime_two).mp hdvd
  have hle : q.num.natAbs ≤ k := by
    have h1 : q.num.natAbs * 2 ^ b ≤ k * 2 ^ b := by
      rw [hcross]; exact Nat.mul_le_mul_left _ (by rw [hc]; exact Nat.pow_le_pow_right (by norm_num) hcb)
    exact Nat.le_of_mul_le_mul_right h1 (by positivity)
  simp only [roundBinary64]
  generalize q.num.natAbs = n at *
  split
  · next h0 => rw [hqe, h0]; simp
  · next h0 =>
    have hlog : Nat.log2 n ≤ 52 := by
      have : Nat.log2 n < 53 := (Nat.log2_lt h0).mpr (lt_of_le_of_lt hle hk)
      omega
    have hu : ulpExponent n q.den = (Nat.log2 n : Int) - c - 52 := by
      rw [ulpExponent, hc, floorLog2_two_pow n c h0]; omega
    obtain ⟨m, hm⟩ : ∃ m : Nat, (-(ulpExponent n q.den)).toNat = m + c := ⟨52 - Nat.log2 n, by rw [hu]; omega⟩
    have hz : (ulpExponent n q.den).toNat = 0 := by rw [hu]; omega
    rw [hm, hz, hc, pow_zero, mul_one, mul_one, pow_add, ← mul_assoc, roundHalfEven_mul_right _ _ (by positivity)]
    rw [hqe, hc]
    push_cast
    field_simp

/-- The exponent found is not too large: `2^e ≤ n / d`. -/
theorem floorLog2_le (n d : Nat) (hn : n ≠ 0) :
    d * 2 ^ (floorLog2 n d).toNat ≤ n * 2 ^ (-(floorLog2 n d)).toNat := by
  simp only [floorLog2]
  split
  · next h => exact h
  · have hl : 2 ^ Nat.log2 n ≤ n := Nat.log2_self_le hn
    have hd : d < 2 ^ (Nat.log2 d + 1) := Nat.lt_log2_self
    rcases Nat.lt_or_ge (Nat.log2 d) (Nat.log2 n) with h | h
    · have h1 : ((Nat.log2 n : Int) - Nat.log2 d - 1).toNat = Nat.log2 n - Nat.log2 d - 1 := by omega
      have h2 : (-((Nat.log2 n : Int) - Nat.log2 d - 1)).toNat = 0 := by omega
      rw [h1, h2, pow_zero, mul_one]
      calc d * 2 ^ (Nat.log2 n - Nat.log2 d - 1) ≤ 2 ^ (Nat.log2 d + 1) * 2 ^ (Nat.log2 n - Nat.log2 d - 1) :=
            Nat.mul_le_mul_right _ (le_of_lt hd)
        _ = 2 ^ Nat.log2 n := by rw [← pow_add]; congr 1; omega
        _ ≤ n := hl
    · have h1 : ((Nat.log2 n : Int) - Nat.log2 d - 1).toNat = 0 := by omega
      have h2 : (-((Nat.log2 n : Int) - Nat.log2 d - 1)).toNat = Nat.log2 d + 1 - Nat.log2 n := by omega
      rw [h1, h2, pow_zero, mul_one]
      calc d ≤ 2 ^ (Nat.log2 d + 1) := le_of_lt hd
        _ = 2 ^ Nat.log2 n * 2 ^ (Nat.log2 d + 1 - Nat.log2 n) := by rw [← pow_add]; congr 1; omega
        _ ≤ n * 2 ^ (Nat.log2 d + 1 - Nat.log2 n) := Nat.mul_le_mul_right _ hl

/-- Rounding never goes below 0. -/
theorem roundBinary64_nonneg (q : Rat) : 0 ≤ roundBinary64 q := by
  simp only [roundBinary64]
  split
  · exact le_refl _
  · positivity

/-- A power of two with a whole exponent, as the rounding writes it. -/
theorem two_zpow_eq (u : Int) : (2 : Rat) ^ u = (2 ^ u.toNat : Rat) / 2 ^ (-u).toNat := by
  rcases Int.le_total 0 u with h | h
  · obtain ⟨k, rfl⟩ := Int.eq_ofNat_of_zero_le h
    have h2 : (-(k : Int)).toNat = 0 := by omega
    rw [h2, Int.toNat_natCast, zpow_natCast, pow_zero, div_one]
  · obtain ⟨k, hk⟩ := Int.eq_ofNat_of_zero_le (show 0 ≤ -u by omega)
    have h1 : u.toNat = 0 := by omega
    have h2 : u = -(k : Int) := by omega
    rw [h1, h2, neg_neg, Int.toNat_natCast, zpow_neg, zpow_natCast, pow_zero, one_div]

/-- Rounding up moves a value by at most one unit in its last place: one part in `2^52`, or `2^-1074` near 0. -/
theorem roundBinary64_le (q : Rat) (hq : 0 ≤ q) : roundBinary64 q ≤ q + max (q / 2 ^ 52) (2 ^ (-1074 : Int)) := by
  have hnum : (q.num.natAbs : Int) = q.num := by
    rw [Int.natCast_natAbs, abs_of_nonneg (Rat.num_nonneg.mpr hq)]
  have hqe : q = (q.num.natAbs : Rat) / (q.den : Rat) := by
    conv_lhs => rw [← Rat.num_div_den q]
    rw [← hnum]; simp
  have hd0 : (0 : Rat) < (q.den : Rat) := by exact_mod_cast q.den_pos
  have hqd : q * q.den = (q.num.natAbs : Rat) := by
    conv_lhs => lhs; rw [hqe]
    exact div_mul_cancel₀ _ (ne_of_gt hd0)
  clear hqe hnum
  simp only [roundBinary64]
  generalize q.num.natAbs = n at *
  split
  · positivity
  · next h0 =>
    have hE : (2 : Rat) ^ floorLog2 n q.den ≤ q := by
      have h := floorLog2_le n q.den h0
      have hQ : (q.den : Rat) * 2 ^ (floorLog2 n q.den).toNat ≤ n * 2 ^ (-(floorLog2 n q.den)).toNat := by exact_mod_cast h
      rw [two_zpow_eq, div_le_iff₀ (by positivity)]
      rw [← hqd] at hQ
      exact le_of_mul_le_mul_left (by linarith) hd0
    have hU : (2 : Rat) ^ ulpExponent n q.den ≤ max (q / 2 ^ 52) (2 ^ (-1074 : Int)) := by
      rcases le_total (floorLog2 n q.den) (-1022) with h | h
      · rw [ulpExponent, max_eq_right h]; exact le_max_right _ _
      · rw [ulpExponent, max_eq_left h]
        refine le_trans ?_ (le_max_left _ _)
        rw [zpow_sub₀ (by norm_num)]
        exact div_le_div_of_nonneg_right hE (by positivity)
    refine le_trans ?_ (add_le_add_right hU q)
    generalize ulpExponent n q.den = u at *
    have hm := roundHalfEven_le (n * 2 ^ (-u).toNat) (q.den * 2 ^ u.toNat)
    generalize roundHalfEven (n * 2 ^ (-u).toNat) (q.den * 2 ^ u.toNat) = m at *
    have hdiv : (n * 2 ^ (-u).toNat / (q.den * 2 ^ u.toNat)) * (q.den * 2 ^ u.toNat) ≤ n * 2 ^ (-u).toNat :=
      Nat.div_mul_le_self _ _
    have hmul : m * (q.den * 2 ^ u.toNat) ≤ n * 2 ^ (-u).toNat + q.den * 2 ^ u.toNat := by
      calc m * (q.den * 2 ^ u.toNat) ≤ (n * 2 ^ (-u).toNat / (q.den * 2 ^ u.toNat) + 1) * (q.den * 2 ^ u.toNat) :=
            Nat.mul_le_mul_right _ hm
        _ ≤ _ := by rw [Nat.add_mul, Nat.one_mul]; exact Nat.add_le_add_right hdiv _
    have hmulQ : (m : Rat) * (q.den * 2 ^ u.toNat) ≤ n * 2 ^ (-u).toNat + q.den * 2 ^ u.toNat := by exact_mod_cast hmul
    rw [two_zpow_eq]
    push_cast
    rw [div_le_iff₀ (by positivity), add_mul, div_mul_cancel₀ _ (by positivity)]
    rw [← hqd] at hmulQ
    have h2 : ((m : Rat) * 2 ^ u.toNat) * q.den ≤ (q * 2 ^ (-u).toNat + 2 ^ u.toNat) * q.den := by linarith
    exact le_of_mul_le_mul_right h2 hd0

end Sys2Proof.Machine
end

