-- ==== Sys2Proof/Laws/Decode.lean ====
section
/-! SUPPORT. The two fields of a command word, and the three bits the opcode map looks at. -/

namespace Sys2Proof

/-- A command word as a number: op in the high bits (rule R51). -/
theorem commandOf_toNat (op : BitVec 3) (data : Word) :
    (commandOf op data).toNat = op.toNat * 2 ^ 32 + data.toNat := by
  have h : (commandOf op data).toNat = op.toNat <<< 32 ||| data.toNat := BitVec.toNat_append op data
  rw [h, ← Nat.shiftLeft_add_eq_or_of_lt data.isLt, Nat.shiftLeft_eq]

theorem opField_toNat (w : Command) : (opField w).toNat = w.toNat / 2 ^ 32 := by
  have := w.isLt
  simp only [opField, BitVec.extractLsb'_toNat, Nat.shiftRight_eq_div_pow]
  omega

theorem dataField_toNat (w : Command) : (dataField w).toNat = w.toNat % 2 ^ 32 := by
  simp [dataField, BitVec.extractLsb'_toNat]

@[simp] theorem opField_commandOf (op : BitVec 3) (data : Word) : opField (commandOf op data) = op := by
  have := data.isLt
  apply BitVec.eq_of_toNat_eq
  rw [opField_toNat, commandOf_toNat]
  omega

@[simp] theorem dataField_commandOf (op : BitVec 3) (data : Word) : dataField (commandOf op data) = data := by
  have := data.isLt
  apply BitVec.eq_of_toNat_eq
  rw [dataField_toNat, commandOf_toNat]
  omega

/-- A word is its two fields (rule R51). -/
@[simp] theorem commandOf_fields (w : Command) : commandOf (opField w) (dataField w) = w := by
  apply BitVec.eq_of_toNat_eq
  rw [commandOf_toNat, opField_toNat, dataField_toNat]
  omega

@[simp] theorem decode_commandOf (op : BitVec 3) (data : Word) : decode (commandOf op data) = decodeFields op data := by
  simp [decode]

/-- The eight values of op. -/
theorem op_cases (op : BitVec 3) : op = 0b000#3 ∨ op = 0b001#3 ∨ op = 0b010#3 ∨ op = 0b011#3 ∨ op = 0b100#3 ∨ op = 0b101#3 ∨
    op = 0b110#3 ∨ op = 0b111#3 := by
  revert op; decide

@[simp] theorem decodeFields_nop (data : Word) : decodeFields 0b000#3 data = .nop := rfl
@[simp] theorem decodeFields_clear (data : Word) : decodeFields 0b001#3 data = .clear := rfl
@[simp] theorem decodeFields_fold (data : Word) : decodeFields 0b010#3 data = .fold data := rfl
@[simp] theorem decodeFields_next (data : Word) : decodeFields 0b011#3 data = .next := rfl
@[simp] theorem decodeFields_rdw (data : Word) : decodeFields 0b100#3 data = .rdw (data.extractLsb' 0 2) := rfl
@[simp] theorem decodeFields_rdidx (data : Word) : decodeFields 0b101#3 data = .rdidx := rfl
@[simp] theorem decodeFields_rsvd6 (data : Word) : decodeFields 0b110#3 data = .rsvd6 := rfl
@[simp] theorem decodeFields_rsvd7 (data : Word) : decodeFields 0b111#3 data = .rsvd7 := rfl

end Sys2Proof
end

