-- ==== Sys2Proof/Laws/PerInstr.lean ====
section
/-! SUPPORT. The per-instruction family EncodingRow: a command's canonical word stands in the row of the opcode map (rule R53)
that carries its mnemonic. -/

namespace Sys2Proof.Laws.EncodingRow

/-- The canonical word of `i` is of a row of the opcode map, and the row's mnemonic is that of `i`. -/
def Statement (i : Instr) : Prop := ∃ r ∈ opcodeTable, r.mnemonic = i.mnemonic ∧ r.admits (encode i) = true

/-- The mask of every row takes the op field and nothing else: what is admitted depends on op alone (rule R61). -/
theorem commandOf_and_mask (op : BitVec 3) (data : Word) : commandOf op data &&& 0x700000000#35 = commandOf op 0#32 := by
  have hm : (0x700000000#35 : Command) = commandOf 0b111#3 0#32 := by decide
  have ho : op &&& 0b111#3 = op := by revert op; decide
  have h : commandOf op data &&& commandOf 0b111#3 0#32 = commandOf (op &&& 0b111#3) (data &&& 0#32) :=
    BitVec.and_append
  rw [hm, h, ho, BitVec.and_zero]

theorem nop : Statement .nop := ⟨_, List.getElem_mem (n := 0) (by decide), rfl, by decide⟩
theorem clear : Statement .clear := ⟨_, List.getElem_mem (n := 1) (by decide), rfl, by decide⟩
theorem fold (c : Word) : Statement (.fold c) := by
  refine ⟨_, List.getElem_mem (n := 2) (by decide), rfl, ?_⟩
  have h := commandOf_and_mask 0b010#3 c
  simp only [OpcodeRow.admits, opcodeTable, encode, Instr.op, Instr.data, List.getElem_cons_succ, List.getElem_cons_zero, h]
  decide
theorem next : Statement .next := ⟨_, List.getElem_mem (n := 3) (by decide), rfl, by decide⟩
theorem rdw (k : BitVec 2) : Statement (.rdw k) := ⟨_, List.getElem_mem (n := 4) (by decide), rfl, by revert k; decide⟩
theorem rdidx : Statement .rdidx := ⟨_, List.getElem_mem (n := 5) (by decide), rfl, by decide⟩
theorem rsvd6 : Statement .rsvd6 := ⟨_, List.getElem_mem (n := 6) (by decide), rfl, by decide⟩
theorem rsvd7 : Statement .rsvd7 := ⟨_, List.getElem_mem (n := 7) (by decide), rfl, by decide⟩

end Sys2Proof.Laws.EncodingRow
end

