-- ==== Sys2Proof/Laws/State.lean ====
section
/-! SUPPORT. One lemma per field per update of State, and the laws of reading and writing the state words. -/

namespace Sys2Proof.Machine

variable (s : State)

/-! ERR <- 1 -/

@[simp] theorem setErr_w0 : (s.setErr).w0 = s.w0 := rfl
@[simp] theorem setErr_w1 : (s.setErr).w1 = s.w1 := rfl
@[simp] theorem setErr_w2 : (s.setErr).w2 = s.w2 := rfl
@[simp] theorem setErr_w3 : (s.setErr).w3 = s.w3 := rfl
@[simp] theorem setErr_fidx : (s.setErr).fidx = s.fidx := rfl
@[simp] theorem setErr_out : (s.setErr).out = s.out := rfl
@[simp] theorem setErr_err : (s.setErr).err = 1#1 := rfl
@[simp] theorem setErr_inputs : (s.setErr).inputs = s.inputs := rfl

/-! W <- 0 -/

@[simp] theorem clearWords_w0 : (s.clearWords).w0 = 0#32 := rfl
@[simp] theorem clearWords_w1 : (s.clearWords).w1 = 0#32 := rfl
@[simp] theorem clearWords_w2 : (s.clearWords).w2 = 0#32 := rfl
@[simp] theorem clearWords_w3 : (s.clearWords).w3 = 0#32 := rfl
@[simp] theorem clearWords_fidx : (s.clearWords).fidx = s.fidx := rfl
@[simp] theorem clearWords_out : (s.clearWords).out = s.out := rfl
@[simp] theorem clearWords_err : (s.clearWords).err = s.err := rfl
@[simp] theorem clearWords_inputs : (s.clearWords).inputs = s.inputs := rfl

/-! the words move down by one -/

@[simp] theorem shiftWords_w0 (n : Word) : (s.shiftWords n).w0 = s.w1 := rfl
@[simp] theorem shiftWords_w1 (n : Word) : (s.shiftWords n).w1 = s.w2 := rfl
@[simp] theorem shiftWords_w2 (n : Word) : (s.shiftWords n).w2 = s.w3 := rfl
@[simp] theorem shiftWords_w3 (n : Word) : (s.shiftWords n).w3 = n := rfl
@[simp] theorem shiftWords_fidx (n : Word) : (s.shiftWords n).fidx = s.fidx := rfl
@[simp] theorem shiftWords_out (n : Word) : (s.shiftWords n).out = s.out := rfl
@[simp] theorem shiftWords_err (n : Word) : (s.shiftWords n).err = s.err := rfl
@[simp] theorem shiftWords_inputs (n : Word) : (s.shiftWords n).inputs = s.inputs := rfl

/-! FIDX <- v -/

@[simp] theorem setFidx_w0 (v : BitVec 2) : (s.setFidx v).w0 = s.w0 := rfl
@[simp] theorem setFidx_w1 (v : BitVec 2) : (s.setFidx v).w1 = s.w1 := rfl
@[simp] theorem setFidx_w2 (v : BitVec 2) : (s.setFidx v).w2 = s.w2 := rfl
@[simp] theorem setFidx_w3 (v : BitVec 2) : (s.setFidx v).w3 = s.w3 := rfl
@[simp] theorem setFidx_fidx (v : BitVec 2) : (s.setFidx v).fidx = v := rfl
@[simp] theorem setFidx_out (v : BitVec 2) : (s.setFidx v).out = s.out := rfl
@[simp] theorem setFidx_err (v : BitVec 2) : (s.setFidx v).err = s.err := rfl
@[simp] theorem setFidx_inputs (v : BitVec 2) : (s.setFidx v).inputs = s.inputs := rfl

/-! OUT <- v -/

@[simp] theorem setOut_w0 (v : Word) : (s.setOut v).w0 = s.w0 := rfl
@[simp] theorem setOut_w1 (v : Word) : (s.setOut v).w1 = s.w1 := rfl
@[simp] theorem setOut_w2 (v : Word) : (s.setOut v).w2 = s.w2 := rfl
@[simp] theorem setOut_w3 (v : Word) : (s.setOut v).w3 = s.w3 := rfl
@[simp] theorem setOut_fidx (v : Word) : (s.setOut v).fidx = s.fidx := rfl
@[simp] theorem setOut_out (v : Word) : (s.setOut v).out = v := rfl
@[simp] theorem setOut_err (v : Word) : (s.setOut v).err = s.err := rfl
@[simp] theorem setOut_inputs (v : Word) : (s.setOut v).inputs = s.inputs := rfl

/-! the edge is consumed -/

@[simp] theorem consumePins_w0 : (s.consumePins).w0 = s.w0 := rfl
@[simp] theorem consumePins_w1 : (s.consumePins).w1 = s.w1 := rfl
@[simp] theorem consumePins_w2 : (s.consumePins).w2 = s.w2 := rfl
@[simp] theorem consumePins_w3 : (s.consumePins).w3 = s.w3 := rfl
@[simp] theorem consumePins_fidx : (s.consumePins).fidx = s.fidx := rfl
@[simp] theorem consumePins_out : (s.consumePins).out = s.out := rfl
@[simp] theorem consumePins_err : (s.consumePins).err = s.err := rfl
@[simp] theorem consumePins_inputs : (s.consumePins).inputs = s.inputs.tail := rfl

/-! one more edge first -/

@[simp] theorem present_w0 (p : PortIn) : (s.present p).w0 = s.w0 := rfl
@[simp] theorem present_w1 (p : PortIn) : (s.present p).w1 = s.w1 := rfl
@[simp] theorem present_w2 (p : PortIn) : (s.present p).w2 = s.w2 := rfl
@[simp] theorem present_w3 (p : PortIn) : (s.present p).w3 = s.w3 := rfl
@[simp] theorem present_fidx (p : PortIn) : (s.present p).fidx = s.fidx := rfl
@[simp] theorem present_out (p : PortIn) : (s.present p).out = s.out := rfl
@[simp] theorem present_err (p : PortIn) : (s.present p).err = s.err := rfl
@[simp] theorem present_inputs (p : PortIn) : (s.present p).inputs = p :: s.inputs := rfl

/-! more edges first -/

@[simp] theorem presentAll_w0 (ps : List PortIn) : (s.presentAll ps).w0 = s.w0 := rfl
@[simp] theorem presentAll_w1 (ps : List PortIn) : (s.presentAll ps).w1 = s.w1 := rfl
@[simp] theorem presentAll_w2 (ps : List PortIn) : (s.presentAll ps).w2 = s.w2 := rfl
@[simp] theorem presentAll_w3 (ps : List PortIn) : (s.presentAll ps).w3 = s.w3 := rfl
@[simp] theorem presentAll_fidx (ps : List PortIn) : (s.presentAll ps).fidx = s.fidx := rfl
@[simp] theorem presentAll_out (ps : List PortIn) : (s.presentAll ps).out = s.out := rfl
@[simp] theorem presentAll_err (ps : List PortIn) : (s.presentAll ps).err = s.err := rfl
@[simp] theorem presentAll_inputs (ps : List PortIn) : (s.presentAll ps).inputs = ps ++ s.inputs := rfl

/-! a reset edge -/

@[simp] theorem applyReset_w0 : (s.applyReset).w0 = 0#32 := rfl
@[simp] theorem applyReset_w1 : (s.applyReset).w1 = 0#32 := rfl
@[simp] theorem applyReset_w2 : (s.applyReset).w2 = 0#32 := rfl
@[simp] theorem applyReset_w3 : (s.applyReset).w3 = 0#32 := rfl
@[simp] theorem applyReset_fidx : (s.applyReset).fidx = 0#2 := rfl
@[simp] theorem applyReset_out : (s.applyReset).out = 0#32 := rfl
@[simp] theorem applyReset_err : (s.applyReset).err = 0#1 := rfl
@[simp] theorem applyReset_inputs : (s.applyReset).inputs = s.inputs := rfl

/-! An exception sets ERR and nothing else -/

@[simp] theorem takeException_eq_setErr (e : BlockException) : s.takeException e = s.setErr := by cases e; rfl

/-! Writing one word: the fields that are no words, and the words by index -/

/-- The four values of a 2-bit index. -/
theorem index_cases (i : BitVec 2) : i = 0#2 ∨ i = 1#2 ∨ i = 2#2 ∨ i = 3#2 := by
  have := i.isLt
  have h : i.toNat = 0 ∨ i.toNat = 1 ∨ i.toNat = 2 ∨ i.toNat = 3 := by omega
  rcases h with h | h | h | h
  · exact .inl (BitVec.eq_of_toNat_eq h)
  · exact .inr (.inl (BitVec.eq_of_toNat_eq h))
  · exact .inr (.inr (.inl (BitVec.eq_of_toNat_eq h)))
  · exact .inr (.inr (.inr (BitVec.eq_of_toNat_eq h)))

@[simp] theorem getW_zero : s.getW 0#2 = s.w0 := rfl
@[simp] theorem getW_one : s.getW 1#2 = s.w1 := rfl
@[simp] theorem getW_two : s.getW 2#2 = s.w2 := rfl
@[simp] theorem getW_three : s.getW 3#2 = s.w3 := rfl

variable (i j : BitVec 2) (v : Word)

@[simp] theorem setW_zero : s.setW 0#2 v = { s with w0 := v } := rfl
@[simp] theorem setW_one : s.setW 1#2 v = { s with w1 := v } := rfl
@[simp] theorem setW_two : s.setW 2#2 v = { s with w2 := v } := rfl
@[simp] theorem setW_three : s.setW 3#2 v = { s with w3 := v } := rfl

@[simp] theorem setW_fidx : (s.setW i v).fidx = s.fidx := by rcases index_cases i with h | h | h | h <;> subst h <;> rfl
@[simp] theorem setW_out : (s.setW i v).out = s.out := by rcases index_cases i with h | h | h | h <;> subst h <;> rfl
@[simp] theorem setW_err : (s.setW i v).err = s.err := by rcases index_cases i with h | h | h | h <;> subst h <;> rfl
@[simp] theorem setW_inputs : (s.setW i v).inputs = s.inputs := by rcases index_cases i with h | h | h | h <;> subst h <;> rfl

/-- A read after a write to the same word gives the value written. -/
@[simp] theorem getW_setW_self : (s.setW i v).getW i = v := by rcases index_cases i with h | h | h | h <;> subst h <;> rfl

/-- A write leaves every other word alone. -/
theorem getW_setW_of_ne (h : j ≠ i) : (s.setW i v).getW j = s.getW j := by
  rcases index_cases i with hi | hi | hi | hi <;> rcases index_cases j with hj | hj | hj | hj <;> subst hi <;> subst hj <;>
    first | rfl | exact absurd rfl h

/-! Reading a word looks at the words only -/

/-- States with the same four words read the same by index. -/
theorem getW_congr (t : State) (h0 : t.w0 = s.w0) (h1 : t.w1 = s.w1) (h2 : t.w2 = s.w2) (h3 : t.w3 = s.w3) :
    t.getW i = s.getW i := by
  rcases index_cases i with h | h | h | h <;> subst h <;> assumption

@[simp] theorem getW_setFidx (x : BitVec 2) : (s.setFidx x).getW i = s.getW i := rfl
@[simp] theorem getW_setOut : (s.setOut v).getW i = s.getW i := rfl
@[simp] theorem getW_setErr : s.setErr.getW i = s.getW i := rfl
@[simp] theorem getW_present (p : PortIn) : (s.present p).getW i = s.getW i := rfl
@[simp] theorem getW_consumePins : s.consumePins.getW i = s.getW i := rfl

/-! The pins of an edge the host has just planned -/

@[simp] theorem pins_present (p : PortIn) : (s.present p).pins = p := rfl
@[simp] theorem consumePins_present (p : PortIn) : (s.present p).consumePins = s := rfl

end Sys2Proof.Machine
end

