-- ==== Sys2Proof/Laws/Run.lean ====
section
/-! SUPPORT. What each shared operation of a run can do, said once: going on after a step, a rising edge, an edge at the head
of the host's plan, a sequence of commands, a sequence of draws, a palette slot. -/

namespace Sys2Proof.Machine

variable {α β γ : Type}

@[simp] theorem andThen_next (a : α) (f : α → Host.Outcome β Fault Refusal) : andThen (.next a) f = f a := rfl

/-- Everything `andThen` can do to answer a value. -/
theorem andThen_eq_next {m : Host.Outcome α Fault Refusal} {f : α → Host.Outcome β Fault Refusal} {b : β} :
    andThen m f = .next b ↔ ∃ a, m = .next a ∧ f a = .next b := by
  cases m <;> simp [andThen]

theorem andThen_assoc (m : Host.Outcome α Fault Refusal) (f : α → Host.Outcome β Fault Refusal)
    (g : β → Host.Outcome γ Fault Refusal) : andThen (andThen m f) g = andThen m fun a => andThen (f a) g := by
  cases m <;> rfl

/-- Everything a rising edge can do: reset, apply a command, or hold (rules R55, R140, R143). -/
theorem risingEdge_cases {p : PortIn} {s t : State} (h : risingEdge p s = .next t) :
    (p.rst = true ∧ t = s.applyReset) ∨ (p.rst = false ∧ p.cmdValid = true ∧ exec (decode p.command) s = .next t) ∨
      (p.rst = false ∧ p.cmdValid = false ∧ t = s) := by
  unfold risingEdge at h
  split at h
  · cases h; exact .inl ⟨‹_›, rfl⟩
  · split at h
    · exact .inr (.inl ⟨by simp_all, ‹_›, h⟩)
    · cases h; exact .inr (.inr ⟨by simp_all, by simp_all, rfl⟩)

/-- A step takes the first planned edge, or is idle where none is planned. -/
theorem step_nil {s : State} (h : s.inputs = []) : step s = .next s := by
  have hc : s.consumePins = s := by cases s; simp_all [State.consumePins]
  simp only [step, State.pins, h, List.headD_nil, hc]
  rfl

theorem step_cons {s : State} {p : PortIn} {rest : List PortIn} (h : s.inputs = p :: rest) :
    step s = risingEdge p { s with inputs := rest } := by
  simp [step, State.pins, State.consumePins, h]

/-- No meaning touches what the host still drives. -/
theorem exec_inputs {i : Instr} {s t : State} (h : exec i s = .next t) : t.inputs = s.inputs := by
  cases i <;> simp only [exec, execNop, execClear, execFold, execNext, execRdw, execRdidx, execRsvd6, execRsvd7,
    Host.Outcome.next.injEq] at h <;> subst h <;> simp

/-- A meaning does the same whatever the host still drives. -/
theorem exec_withInputs (i : Instr) (s : State) (ps : List PortIn) :
    exec i { s with inputs := ps } = andThen (exec i s) fun t => .next { t with inputs := ps } := by
  cases i with
  | fold c =>
    simp only [exec, execFold, andThen_next]
    obtain ⟨w0, w1, w2, w3, f, o, e, qs⟩ := s
    rcases index_cases f with h | h | h | h <;> subst h <;> simp [State.setFidx]
  | nop => rfl
  | clear => rfl
  | next => rfl
  | rdw k => rfl
  | rdidx => rfl
  | rsvd6 => rfl
  | rsvd7 => rfl

@[simp] theorem runCommands_nil (s : State) : runCommands [] s = .next ([], s) := rfl

theorem runCommands_cons (i : Instr) (rest : List Instr) (s : State) :
    runCommands (i :: rest) s =
      andThen (issue i s) fun t => andThen (runCommands rest t) fun r => .next (t.outData :: r.1, r.2) := rfl

/-- A sequence of commands in two parts: the draws of the first part, then those of the second from where it stopped. -/
theorem runCommands_append (cs ds : List Instr) (s : State) :
    runCommands (cs ++ ds) s =
      andThen (runCommands cs s) fun r => andThen (runCommands ds r.2) fun q => .next (r.1 ++ q.1, q.2) := by
  induction cs generalizing s with
  | nil =>
    simp only [List.nil_append, runCommands_nil, andThen_next]
    cases runCommands ds s <;> rfl
  | cons i rest ih =>
    simp only [List.cons_append, runCommands_cons, ih, andThen_assoc, andThen_next]

theorem afterCommands_append (cs ds : List Instr) (s : State) :
    afterCommands (cs ++ ds) s = andThen (afterCommands cs s) (afterCommands ds) := by
  simp only [afterCommands, runCommands_append, andThen_assoc, andThen_next]

/-- Everything a palette slot can do (rule R105). -/
theorem resolveSlot_cases {ov : Option (List Char)} {s : State} {r : SlotColor × State} (h : resolveSlot ov s = .next r) :
    (∃ text, ov = some text ∧ r = (.override text, s)) ∨
      (ov = none ∧ ∃ d, drawMany 6 s = .next d ∧ r = (.drawn (colorOfDraws d.1), d.2)) := by
  cases ov with
  | some text => cases h; exact .inl ⟨text, rfl, rfl⟩
  | none =>
    obtain ⟨d, hd, hr⟩ := andThen_eq_next.mp h
    cases hr
    exact .inr ⟨rfl, d, hd, rfl⟩

end Sys2Proof.Machine
end

