-- ==== Sys2Proof/Tests/Slice0.lean ====
section
/-! SUPPORT. The model's own tests. Expected values are the spec's: the opcode map (rule R53) and the vectors of
spec/95_test_vectors.md, section L2. Then one witness for every statement that has hypotheses: concrete values that meet them. -/

namespace Sys2Proof.Tests

open Sys2Proof.Machine

/-- The next state, where the outcome is one. -/
def got : Outcome → Option State
  | .next s => some s
  | .fault _ => none
  | .refused _ => none

/-- A state with these words, FIDX, OUT and ERR, and no edge planned. -/
def st (a b c d : Word) (f : BitVec 2) (o : Word) (e : BitVec 1) : State := ⟨a, b, c, d, f, o, e, []⟩

/-- The state of sections L2.1 and L2.4 of the test vectors. -/
def l24 : State := st 0x00000000#32 0x00030B69#32 0x0000181B#32 0x00030360#32 3#2 0x00030360#32 0#1

/-! Well-formedness: each check refuses an ill-formed term, and takes the greatest well-formed one -/

theorem test_wellFormed_fold_too_large : (AsmLine.fold (.number (2 ^ 32))).wellFormed = false := by decide
theorem test_wellFormed_fold_largest : (AsmLine.fold (.number (2 ^ 32 - 1))).wellFormed = true := by decide
theorem test_wellFormed_rdw_too_large : (AsmLine.rdw 4).wellFormed = false := by decide
theorem test_wellFormed_rdw_largest : (AsmLine.rdw 3).wellFormed = true := by decide
theorem test_wellFormed_every_instr (i : Instr) : i.wellFormed = true := by cases i <;> rfl

/-! Decoding: a word of every constructor, bit by bit from rule R51 and R53 (op, then data), and what no word is -/

theorem test_decode_nop : decode 0b00000000000000000000000000000000000#35 = .nop := by decide
theorem test_decode_clear : decode 0b00100000000000000000000000000000000#35 = .clear := by decide
theorem test_decode_fold : decode 0b01011111111110000000000011111111111#35 = .fold 0xFFC007FF#32 := by decide
theorem test_decode_next : decode 0b01100000000000000000000000000000000#35 = .next := by decide
theorem test_decode_rdw : decode 0b10000000000000000000000000000000001#35 = .rdw 1#2 := by decide
theorem test_decode_rdw_ignores : decode 0b10011111111111111111111111111111110#35 = .rdw 2#2 := by decide
theorem test_decode_rdidx : decode 0b10100000000000000000000000000000000#35 = .rdidx := by decide
theorem test_decode_rsvd6 : decode 0b11000000000000000000000000000000000#35 = .rsvd6 := by decide
theorem test_decode_rsvd7 : decode 0b11100010010001101000101011001111000#35 = .rsvd7 := by decide
theorem test_decode_table_word : decodeTableWord 40 0x2FFC007FF = some (.fold 0xFFC007FF#32) := by decide
theorem test_decode_refuses_36_bits : decodeTableWord 40 0x800000000 = none := by decide

/-! One step of each command, on the vectors of section L2 -/

theorem test_step_nop : got (step (l24.withFetchWord 40 0x0DEADBEEF)) = some l24 := by decide
theorem test_step_clear : got (step ((st 0#32 0x00030B69#32 0x0000181B#32 0x00030360#32 3#2 3#32 1#1).withFetchWord 40 0x1FFFFFFFF)) =
    some (st 0#32 0#32 0#32 0#32 0#2 3#32 1#1) := by decide
theorem test_step_fold : got (step ((st 1#32 2#32 3#32 0xDEADBEEF#32 3#2 5#32 0#1).withFetchWord 40 0x20000007A)) =
    some (st 1#32 2#32 3#32 0xF70A1F6B#32 0#2 5#32 0#1) := by decide
theorem test_step_fold_w1 : got (step ((st 1#32 0x12345678#32 3#32 4#32 1#2 5#32 0#1).withFetchWord 40 0x200000041)) =
    some (st 1#32 0x345678C9#32 3#32 4#32 2#2 5#32 0#1) := by decide
theorem test_step_next : got (step ((st 0x12345678#32 0x9ABCDEF0#32 0x0FEDCBA9#32 0x87654321#32 2#2 0#32 1#1).withFetchWord 40 0x300000000)) =
    some (st 0x9ABCDEF0#32 0x0FEDCBA9#32 0x87654321#32 0x37ADA223#32 2#2 0x37ADA223#32 1#1) := by decide
theorem test_step_next_sign_fill : got (step ((st 0x80000000#32 0#32 0#32 0#32 0#2 0#32 0#1).withFetchWord 40 0x300000000)) =
    some (st 0#32 0#32 0#32 0x7F800000#32 0#2 0x7F800000#32 0#1) := by decide
theorem test_step_rdw : got (step (l24.withFetchWord 40 0x4FFFFFFFE)) = some { l24 with out := 0x0000181B#32 } := by decide
theorem test_step_rdidx : got (step (l24.withFetchWord 40 0x500000000)) = some { l24 with out := 3#32 } := by decide
theorem test_step_rsvd6 : got (step (l24.withFetchWord 40 0x600000000)) = some { l24 with err := 1#1 } := by decide
theorem test_step_rsvd7 : got (step (State.reset.withFetchWord 40 0x712345678)) = some { State.reset with err := 1#1 } := by decide
theorem test_step_reset_beats_command : got (step ({ l24 with err := 1#1 }.present ⟨true, true, 0b011#3, 0#32⟩)) = some State.reset := by
  decide

/-! The host's arithmetic, on section L1.8's foreground (draws 1 to 6 of seed "test") and the literal 2.3 -/

theorem test_color_of_seed_test :
    colorOf 0x0003A3A0#32 0x000088ED#32 0x00031306#32 0x0000B0D2#32 0x1D030DD1#32 0x1940A97C#32 =
      ⟨0, roundBinary64 (4000097936950624 / 10 ^ 14), roundBinary64 (10601410700473934 / 10 ^ 15)⟩ := by decide +kernel
theorem test_pixel_values : pixelOf 0x4B3EFBFF#32 = 1 ∧ pixelOf 0x0E97242B#32 = 0 ∧ pixelOf 0x70089911#32 = 2 := by decide +kernel

/-! Witnesses: values that meet the hypotheses of the statements that have any, named after the statement -/

theorem witness_StepRunsThePresentedCommand :
    (decode (commandOf 0b100#3 0xFFFFFFFF#32) = .rdw 3#2 ∧ (Instr.rdw 3#2).wellFormed = true) ∧
      decodeTableWord 40 0x7FFFFFFFF = some .rsvd7 := by decide

theorem witness_NothingPlannedIsIdle : l24.inputs = [] := rfl

theorem witness_ResetEdgeTakesTheResetState :
    ([PortIn.resetCycle] ≠ [] ∧ ∀ p ∈ [PortIn.resetCycle], p.rst = true) ∧
      got (step ({ l24 with err := 1#1 }.present .resetCycle)) = some State.reset ∧ State.reset.err = 0#1 := by decide

theorem witness_DecoderIsTotalOverTheOpcodeMap :
    opField 0x1FFFFFFFF#35 = opField 0x100000000#35 ∧
      (⟨"CLEAR", 0x100000000#35, 0x700000000#35⟩ : OpcodeRow) ∈ opcodeTable ∧
      (⟨"CLEAR", 0x100000000#35, 0x700000000#35⟩ : OpcodeRow).admits 0x1FFFFFFFF#35 = true := by decide

theorem witness_DecodeAndEncodeAgree :
    (Instr.fold 0xFFFFFFFF#32).wellFormed = true ∧ 2 ^ 35 ≤ 0x800000000 ∧
      decode 0x4FFFFFFFF#35 = decode 0x400000003#35 ∧ canonical 0x4FFFFFFFF#35 = canonical 0x400000003#35 := by decide

theorem witness_IgnoredDataBitsAreDontCare :
    (0xFFFFFFFF#32 : Word).extractLsb' 0 2 = (0x3#32 : Word).extractLsb' 0 2 ∧
      ((0b001#3 : BitVec 3) ≠ 0b010#3 ∧ (0b001#3 : BitVec 3) ≠ 0b100#3) ∧ (0b101#3 : BitVec 3).toNat < 6 := by decide

theorem witness_OperatorsOnWords :
    (31 < 32 ∧ 0 < 32 - 31 ∧ 32 - 31 ≤ 31 ∧ 31 < 32) ∧ asr 0x80000000#32 31 = 0xFFFFFFFF#32 ∧
      lsr 0x80000000#32 31 = 0x00000001#32 := by decide

theorem witness_ClearStartsASeed : ∀ i ∈ [Instr.fold 0x61#32, .nop, .rsvd6], i ≠ .next ∧ i ≠ .rdidx ∧ ∀ k, i ≠ .rdw k := by
  intro i hi
  simp only [List.mem_cons, List.not_mem_nil, or_false] at hi
  rcases hi with h | h | h <;> subst h <;> simp

theorem witness_FoldFoldsOneCode : (2#2 : BitVec 2) ≠ l24.fidx ∧ State.reset.getW State.reset.fidx = 0#32 := by decide

theorem witness_NextIsOneXorshiftStep :
    (0 < 31 ∧ 31 < 32 ∧ (0x80000000#32 : Word).msb = true) ∧ (0 < 1 ∧ 1 < 32) ∧
      (State.reset.w0 = 0#32 ∧ State.reset.w1 = 0#32 ∧ State.reset.w2 = 0#32 ∧ State.reset.w3 = 0#32) := by decide

theorem witness_IllegalCommandSetsErrAndNothingElse :
    (Instr.rsvd6 = .rsvd6 ∨ Instr.rsvd6 = .rsvd7) ∧ (Instr.rsvd7 = .rsvd6 ∨ Instr.rsvd7 = .rsvd7) := by decide

theorem witness_OwnCommandsRaiseNothing : Instr.fold 0xFFFFFFFF#32 ≠ .rsvd6 ∧ Instr.fold 0xFFFFFFFF#32 ≠ .rsvd7 := by decide

theorem witness_OnlyReservedOpcodesRaise : l24.err = 0#1 := by decide

theorem witness_ErrIsStickyUntilReset :
    ((∀ p ∈ [PortIn.ofCommand 0x100000000#35], p.rst = false) ∧ { l24 with err := 1#1 }.err = 1#1) ∧
      ((∀ p ∈ [PortIn.ofCommand 0x712345678#35], p.rst = false) ∧
        ∃ p ∈ [PortIn.ofCommand 0x712345678#35], p.presentsReserved = true) ∧
      (l24.err = 0#1 ∧ ∀ p ∈ [PortIn.ofCommand 0x5FFFFFFFF#35, .resetCycle], p.presentsReserved = false) ∧
      PortIn.resetCycle.rst = true := by decide

theorem witness_OnlyTheNamedCommandsWriteEachRegister :
    (Instr.rdidx.mnemonic ≠ "CLEAR" ∧ Instr.rdidx.mnemonic ≠ "FOLD" ∧ Instr.rdidx.mnemonic ≠ "NEXT") ∧
      (Instr.next.mnemonic ≠ "CLEAR" ∧ Instr.next.mnemonic ≠ "FOLD") ∧
      (Instr.clear.mnemonic ≠ "NEXT" ∧ Instr.clear.mnemonic ≠ "RDW" ∧ Instr.clear.mnemonic ≠ "RDIDX") ∧
      (Instr.clear.mnemonic ≠ "RSVD6" ∧ Instr.clear.mnemonic ≠ "RSVD7") := by decide

theorem witness_FidxCountsFoldsModuloFour : l24.fidx.toNat = 7 % 4 := by decide

theorem witness_FoldWithoutClear : (0#2 : BitVec 2) ≠ l24.fidx := by decide

theorem witness_OutputNeverReachesOne : 1 ≤ 1 ∧ 4 ≤ 4 := by decide

theorem witness_ZeroStateIsAFixedPoint :
    (State.reset.w0 = 0#32 ∧ State.reset.w1 = 0#32 ∧ State.reset.w2 = 0#32 ∧ State.reset.w3 = 0#32) ∧
      ∀ c ∈ [0#32, 0#32], c = (0#32 : Word) := ⟨by decide, by simp⟩

theorem witness_NextIsNotInjective :
    ((0x00000000#32 : Word) = 0x00000000#32 ∨ (0x00000000#32 : Word) = 0xFFC007FF#32) ∧
      ((0xFFC007FF#32 : Word) = 0x00000000#32 ∨ (0xFFC007FF#32 : Word) = 0xFFC007FF#32) := by decide

theorem witness_DependenciesOfOneStep : l24.w0 = { l24 with w1 := 9#32 }.w0 ∧ l24.w3 = { l24 with w1 := 9#32 }.w3 := by decide

theorem witness_StepKeepsDrawing :
    Drawing (l24.present (.ofCommand 0x300000000#35)) ∧
      got (step (l24.present (.ofCommand 0x300000000#35))) =
        some (st 0x00030B69#32 0x0000181B#32 0x00030360#32 0x00030360#32 3#2 0x00030360#32 0#1) := by
  refine ⟨⟨?_, ?_, ?_, ?_, ?_, ?_⟩, ?_⟩ <;> decide

theorem witness_StepKeepsClean :
    Clean (l24.present (.ofCommand 0x5FFFFFFFF#35)) ∧
      got (step (l24.present (.ofCommand 0x5FFFFFFFF#35))) = some { l24 with out := 3#32 } := by
  refine ⟨⟨?_, ?_⟩, ?_⟩ <;> decide

theorem witness_StepKeepsZeroSeeded :
    ZeroSeeded ((st 0#32 0#32 0#32 0#32 3#2 3#32 1#1).present (.ofCommand 0x200000000#35)) ∧
      got (step ((st 0#32 0#32 0#32 0#32 3#2 3#32 1#1).present (.ofCommand 0x200000000#35))) =
        some (st 0#32 0#32 0#32 0#32 0#2 3#32 1#1) := by
  refine ⟨⟨?_, ?_, ?_, ?_, ?_, ?_⟩, ?_⟩ <;> decide

theorem witness_InvariantsHoldAtReset :
    (∀ p ∈ [PortIn.ofCommand 0x712345678#35], p.presentsFold = false) ∧
      (∀ p ∈ [PortIn.ofCommand 0x2FFFFFFFF#35], p.presentsReserved = false) ∧
      (∀ p ∈ [PortIn.ofCommand 0x200000000#35], p.presentsNonzeroFold = false) := by decide

theorem witness_InstancesShareNothing :
    1 ≠ 0 ∧ ([l24.present (.ofCommand 0x500000000#35), State.reset] : System)[0]? = some (l24.present (.ofCommand 0x500000000#35)) ∧
      got (step (l24.present (.ofCommand 0x500000000#35))) = some { l24 with out := 3#32 } := by decide

theorem witness_AssemblerLinesEncodeTheirOperands :
    AsmLine.draw 2 ≠ .reset ∧ (AsmLine.fold (.number 0xFFFFFFFF)).wellFormed = true ∧ (AsmLine.rdw 3).wellFormed = true :=
  ⟨nofun, by simp [AsmLine.wellFormed, FoldOperand.wellFormed], by decide⟩

theorem witness_AssemblerLinesReadText : parseLine ['R', 'D', 'W', ' ', '3'] = .ok (.rdw 3) := by rfl

theorem witness_SeedResolution :
    (({ charUnit := .utf16Unit } : HostParams).emptySeed = .notSupplied ∧ isFallbackSeed ['0', '9', 'a', 'f', 'A', 'F'] = true) ∧
      ({ charUnit := .utf16Unit, emptySeed := .zeroLength } : HostParams).emptySeed = .zeroLength := by decide

theorem witness_CharacterCodes :
    Char.ofNat 0x10FFFF ∈ [Char.ofNat 0x10FFFF] ∧ 0x10000 ≤ (Char.ofNat 0x10000).toNat ∧
      (∀ ch ∈ ['a', Char.ofNat 0xFFFF], ch.toNat < 0x10000) ∧
      0x10FFFF#32 ∈ charCodes .codePoint [Char.ofNat 0x10FFFF] ∧ 0xDFFF#32 ∈ charCodes .utf16Unit [Char.ofNat 0x10FFFF] := by
  refine ⟨by simp, by decide, ?_, by decide +kernel, by decide +kernel⟩
  intro ch h
  simp only [List.mem_cons, List.not_mem_nil, or_false] at h
  rcases h with h | h <;> subst h <;> decide

theorem witness_ValidationBeforeAnyCommand :
    ({ size := 0 } : Options).size ≤ 0 ∧ 0 < ({ size := 1, scale := 0 } : Options).size ∧ ({ size := 1, scale := 0 } : Options).scale ≤ 0 := by
  decide

theorem witness_ColorDrawIsExact : (0x7FFFFFFF#32 : Word).msb = false ∧ (0#32 : Word).msb = false := by decide

theorem witness_GridHoldsTheDrawsAndTheirMirror : (0 < 1 ∧ 0 < (1 + 1) / 2) ∧ (2 < 3 ∧ 1 < (3 + 1) / 2 ∧ 2 < 3) := by decide

theorem witness_GenerateIssuesTheListedCommands :
    0 < ({ size := 1, scale := 1 } : Options).size ∧ 0 < ({ size := 1, scale := 1 } : Options).scale := by decide

theorem witness_GridDependsOnSeedSizeAndUnsetSlots :
    0 < ({ color := some [] } : Options).size ∧ 0 < ({ color := some [] } : Options).scale ∧ 0 < ({ spotColor := some [] } : Options).scale ∧
      ({ color := some [] } : Options).seed = ({ spotColor := some [] } : Options).seed ∧
      ({ color := some [] } : Options).size = ({ spotColor := some [] } : Options).size ∧
      unsetSlots { color := some [] } = unsetSlots { spotColor := some [] } := by decide

theorem witness_HostValueRanges :
    (0x7FFFFFFF#32 : Word).msb = false ∧ pixelOf 0x7FFFFFFF#32 = 2 ∧ 0 < ({} : Options).size ∧ 0 < ({} : Options).scale := by decide +kernel

/-- The foreground of generate's palette, where there is one. -/
def foregroundOf (o : Options) : Option SlotColor :=
  match generate {} [] o State.reset with
  | .ok (.next r) => some r.1.palette.foreground
  | .ok (.fault _) => none
  | .ok (.refused _) => none
  | .error _ => none

theorem witness_HostValueRanges_drawn_slot :
    foregroundOf { seed := some ['t', 'e', 's', 't'], size := 1, scale := 1 } =
      some (.drawn ⟨0, roundBinary64 (4000097936950624 / 10 ^ 14), roundBinary64 (10601410700473934 / 10 ^ 15)⟩) := by
  decide +kernel

/-! A SEED line under either CHAR_UNIT (rules R58, R102): above U+FFFF one code or two -/

theorem test_seed_line_code_point : lineCommands .codePoint (.seed [Char.ofNat 0x10000]) = [.clear, .fold 0x10000#32] := by decide
theorem test_seed_line_utf16 : lineCommands .utf16Unit (.seed [Char.ofNat 0x10000]) = [.clear, .fold 0xD800#32, .fold 0xDC00#32] := by
  decide

/-! A `;` between quotation marks is text (log 13: the model's choice); one outside them starts a comment (rule R57) -/

theorem test_semicolon_in_quotes :
    parseLine "FOLD ';' ; c".toList = .ok (.fold (.quoted ';')) ∧ parseLine "SEED \"a;b\"".toList = .ok (.seed ['a', ';', 'b']) :=
  ⟨by rfl, by rfl⟩
theorem test_semicolon_outside_quotes : parseLine "RDW 3;1".toList = .ok (.rdw 3) := by rfl

end Sys2Proof.Tests
end

section
/-! The operators of rule R9, said once each: what a shift is as a number, and where each bit of the result comes from. -/

namespace Sys2Proof.Machine

variable (a : Word) (n : Nat)

theorem shl_toNat : (shl a n).toNat = a.toNat * 2 ^ n % 2 ^ 32 := by
  rw [shl, BitVec.toNat_shiftLeft, Nat.shiftLeft_eq]

/-- The right shift of a negative word rounds down, as Lean's integer division by a positive number does. -/
theorem asr_toInt : (asr a n).toInt = a.toInt / 2 ^ n := by
  rw [asr, BitVec.toInt_sshiftRight, Int.shiftRight_eq_div_pow]
  exact congrArg (a.toInt / ·) (Int.natCast_pow 2 n)

theorem asr_getLsbD_of_lt {i : Nat} (h : i + n < 32) : (asr a n).getLsbD i = a.getLsbD (i + n) := by
  have hi : ¬ 32 ≤ i := by omega
  simp [asr, BitVec.getLsbD_sshiftRight, hi, Nat.add_comm n i, h]

/-- The copies of a[31] enter at bit 31, whatever the shift amount. -/
theorem asr_getLsbD_of_ge {i : Nat} (h : 32 ≤ i + n) (hi : i < 32) : (asr a n).getLsbD i = a.getLsbD 31 := by
  have hsign : ¬ n + i < 32 := by omega
  simp only [asr, BitVec.getLsbD_sshiftRight, Nat.not_le.mpr hi, hsign, BitVec.msb_eq_getLsbD_last, decide_false,
    Bool.not_false, Bool.true_and, if_false]

theorem lsr_getLsbD (i : Nat) : (lsr a n).getLsbD i = a.getLsbD (i + n) := by
  rw [lsr, BitVec.getLsbD_ushiftRight, Nat.add_comm]

theorem lsr_getLsbD_of_ge {i : Nat} (h : 32 ≤ i + n) : (lsr a n).getLsbD i = false := by
  rw [lsr_getLsbD, BitVec.getLsbD_of_ge a _ h]

end Sys2Proof.Machine

namespace Sys2Proof.Proofs
open Sys2Proof.Machine

/-- Settles O12. Each shift clause is the operator's own lemma; "bits up to 31 - n" there reads `i + n < 32`. -/
theorem operatorsOnWords : Obligations.OperatorsOnWords := by
  refine ⟨fun a b => ⟨BitVec.toNat_add a b, BitVec.toInt_sub⟩, fun a b i => BitVec.getLsbD_xor, shl_toNat, ?asr, ?lsr⟩
  case asr =>
    intro a n hn
    refine ⟨asr_toInt a n, ?moved, ?signs⟩
    case moved =>
      intro i hi
      exact asr_getLsbD_of_lt a n (by omega)
    case signs =>
      intro i hlow hi
      exact asr_getLsbD_of_ge a n (by omega) hi
  case lsr =>
    intro a n hn
    refine ⟨fun i _ => lsr_getLsbD a n i, ?zeros⟩
    case zeros =>
      intro i hlow
      exact lsr_getLsbD_of_ge a n (by omega)

end Sys2Proof.Proofs
end

section
/-! Issuing commands, said once: the canonical word decodes to its command, so an issued command is its meaning, and a sequence
of commands is a sequence of meanings (rules R50, R143). -/

namespace Sys2Proof.Machine

/-- RDW's index survives its zero extension to the data field (rule R91). -/
@[simp] theorem extractLsb'_zext32 (k : BitVec 2) : (zext32 k).extractLsb' 0 2 = k := by
  revert k; decide

@[simp] theorem decode_encode (i : Instr) : decode (encode i) = i := by
  rw [encode, decode_commandOf]
  cases i with
  | rdw k => simp [Instr.op, Instr.data]
  | nop => rfl
  | clear => rfl
  | fold c => exact decodeFields_fold c
  | next => rfl
  | rdidx => rfl
  | rsvd6 => rfl
  | rsvd7 => rfl

@[simp] theorem command_ofCommand (w : Command) : (PortIn.ofCommand w).command = w := commandOf_fields w

@[simp] theorem risingEdge_ofCommand (w : Command) (s : State) : risingEdge (.ofCommand w) s = exec (decode w) s :=
  congrArg (fun c => exec (decode c) s) (command_ofCommand w)

@[simp] theorem issue_eq_exec (i : Instr) (s : State) : issue i s = exec i s := by
  rw [issue, step, pins_present, consumePins_present, risingEdge_ofCommand, decode_encode]

@[simp] theorem afterCommands_nil (s : State) : afterCommands [] s = .next s := rfl

@[simp] theorem afterCommands_cons (i : Instr) (cs : List Instr) (s : State) :
    afterCommands (i :: cs) s = andThen (exec i s) (afterCommands cs) := by
  rw [afterCommands, runCommands_cons, issue_eq_exec]
  simp only [andThen_assoc, andThen_next]
  rfl

end Sys2Proof.Machine
end

section
/-! The seeding commands and the part of the state they work on: the four words and FIDX (rules R32, R70, R71). -/

namespace Sys2Proof.Machine

theorem exec_clear (s : State) : exec .clear s = .next (s.clearWords.setFidx 0#2) := rfl

theorem exec_fold (c : Word) (s : State) :
    exec (.fold c) s = .next ((s.setW s.fidx (foldWord (s.getW s.fidx) c)).setFidx (s.fidx + 1#2)) := rfl

/-- Two states with the same words and the same FIDX: what a seed leaves in the block. OUT, ERR and the coming pins may differ. -/
structure SameSeeding (s t : State) : Prop where
  w0 : s.w0 = t.w0
  w1 : s.w1 = t.w1
  w2 : s.w2 = t.w2
  w3 : s.w3 = t.w3
  fidx : s.fidx = t.fidx

namespace SameSeeding

variable {s t : State}

theorem getW (h : SameSeeding s t) (i : BitVec 2) : s.getW i = t.getW i := getW_congr t i s h.w0 h.w1 h.w2 h.w3

theorem setW (h : SameSeeding s t) (i : BitVec 2) (v : Word) : SameSeeding (s.setW i v) (t.setW i v) := by
  obtain ⟨h0, h1, h2, h3, hf⟩ := h
  rcases index_cases i with hi | hi | hi | hi <;> subst hi <;> constructor <;> simp [h0, h1, h2, h3, hf]

theorem setFidx (h : SameSeeding s t) (v : BitVec 2) : SameSeeding (s.setFidx v) (t.setFidx v) :=
  ⟨h.w0, h.w1, h.w2, h.w3, rfl⟩

end SameSeeding

/-- FOLD looks at the words and FIDX only, so it keeps two seedings the same (rule R71). -/
theorem exec_fold_sameSeeding {s t : State} (h : SameSeeding s t) (c : Word) :
    ∃ s' t', exec (.fold c) s = .next s' ∧ exec (.fold c) t = .next t' ∧ SameSeeding s' t' := by
  refine ⟨_, _, exec_fold c s, exec_fold c t, ?_⟩
  rw [h.fidx, h.getW]
  exact (h.setW _ _).setFidx _

/-- CLEAR leaves the words and FIDX of the reset state, whatever the state before (rules R32, R70). -/
theorem reset_sameSeeding_cleared (s : State) : SameSeeding State.reset (s.clearWords.setFidx 0#2) :=
  ⟨rfl, rfl, rfl, rfl, rfl⟩

end Sys2Proof.Machine

namespace Sys2Proof.Proofs
open Sys2Proof.Machine

/-- Settles O7. Reset and CLEAR leave the same seeding, and FOLD keeps two seedings the same. -/
theorem resetValues : Obligations.ResetValues := by
  refine ⟨⟨rfl, rfl, rfl, rfl, rfl, rfl, rfl⟩, ?afterClear, ?afterFold⟩
  case afterClear =>
    intro s
    obtain ⟨h0, h1, h2, h3, hf⟩ := reset_sameSeeding_cleared s
    exact ⟨_, exec_clear s, h0.symm, h1.symm, h2.symm, h3.symm, hf.symm⟩
  case afterFold =>
    intro c s
    obtain ⟨t, u, ht, hu, h0, h1, h2, h3, hf⟩ := exec_fold_sameSeeding (reset_sameSeeding_cleared s) c
    refine ⟨t, u, ?fromReset, ?fromClear, h0, h1, h2, h3, hf⟩
    case fromReset => rw [afterCommands_cons, ht, andThen_next, afterCommands_nil]
    case fromClear => rw [afterCommands_cons, exec_clear, andThen_next, afterCommands_cons, hu, andThen_next, afterCommands_nil]

end Sys2Proof.Proofs
end

section
/-! The meanings, said once for every command: each answers a next state, and only a reserved command raises anything
(rules R61, R120, R122). The port applies the word it is given (rule R143). -/

namespace Sys2Proof.Machine

@[simp] theorem exec_nop (s : State) : exec .nop s = .next s := rfl

/-- Every command runs to a next state in every state. -/
theorem exec_eq_next (i : Instr) (s : State) : ∃ t, exec i s = .next t := by
  cases i <;> exact ⟨_, rfl⟩

/-- No command but a reserved one touches ERR. -/
theorem exec_err_of_not_reserved {i : Instr} {s t : State} (h : exec i s = .next t) (h6 : i ≠ .rsvd6)
    (h7 : i ≠ .rsvd7) : t.err = s.err := by
  cases i with
  | rsvd6 => exact absurd rfl h6
  | rsvd7 => exact absurd rfl h7
  | fold c =>
    rw [exec_fold, Host.Outcome.next.injEq] at h
    rw [← h, setFidx_err, setW_err]
  | nop => cases h; rfl
  | clear => cases h; rfl
  | next => cases h; rfl
  | rdw k => cases h; rfl
  | rdidx => cases h; rfl

/-- A presented word runs as what it decodes to, canonical or not. -/
theorem step_present_ofCommand (w : Command) (s : State) : step (s.present (.ofCommand w)) = exec (decode w) s := by
  rw [step, pins_present, consumePins_present, risingEdge_ofCommand]

/-- An edge without a reset and without a command leaves the state, whatever the other pins carry (rule R55). -/
theorem step_present_idle (s : State) (op : BitVec 3) (data : Word) : step (s.present ⟨false, false, op, data⟩) = .next s := by
  rw [step, pins_present, consumePins_present]
  rfl

end Sys2Proof.Machine

namespace Sys2Proof.Proofs
open Sys2Proof.Machine

/-- Settles O4. Both edges answer the state itself: the idle one by R55, the other because its word is a NOP. -/
theorem idleEdgeIsIndistinguishableFromNop : Obligations.IdleEdgeIsIndistinguishableFromNop := by
  intro s op data nopData
  have hidle : step (s.present ⟨false, false, op, data⟩) = .next s := step_present_idle s op data
  have hnop : step (s.present (.ofCommand (commandOf 0b000#3 nopData))) = .next s := by
    rw [step_present_ofCommand, decode_commandOf, decodeFields_nop, exec_nop]
  exact ⟨hidle, hidle.trans hnop.symm⟩

end Sys2Proof.Proofs
end

section
/-! The op of a command ties the decoder to the opcode map: decoding keeps the op, a row admits exactly the words of its op, and
no two rows share an op (rules R53, R61). -/

namespace Sys2Proof

@[simp] theorem opField_encode (i : Instr) : opField (encode i) = i.op := opField_commandOf i.op i.data

/-- The decoded command has the word's own op. -/
@[simp] theorem op_decodeFields (op : BitVec 3) (data : Word) : (decodeFields op data).op = op := by
  rcases op_cases op with h | h | h | h | h | h | h | h <;> subst h <;> rfl

@[simp] theorem op_decode (w : Command) : (decode w).op = opField w := op_decodeFields (opField w) (dataField w)

/-- A row's pattern is its op with a zero data field, under the mask of the op field. -/
theorem row_shape : ∀ r ∈ opcodeTable, r.mask = 0x700000000#35 ∧ r.pattern = commandOf (opField r.pattern) 0#32 := by
  decide

/-- A row admits the words that have its op, and no other. -/
theorem admits_iff {r : OpcodeRow} (hr : r ∈ opcodeTable) (w : Command) : r.admits w = true ↔ opField w = opField r.pattern := by
  obtain ⟨hmask, hpattern⟩ := row_shape r hr
  have hmasked : w &&& r.mask = commandOf (opField w) 0#32 := by
    rw [hmask, ← Laws.EncodingRow.commandOf_and_mask (opField w) (dataField w), commandOf_fields]
  rw [OpcodeRow.admits, beq_iff_eq, hmasked]
  constructor
  · intro h
    rw [← h, opField_commandOf]
  · intro h
    rw [h, ← hpattern]

/-- The rows differ in their op. -/
theorem row_eq_of_op_eq : ∀ r ∈ opcodeTable, ∀ r' ∈ opcodeTable, opField r.pattern = opField r'.pattern → r = r' := by
  decide

/-- Each value of op has its row. -/
theorem exists_row_of_op : ∀ op : BitVec 3, ∃ r ∈ opcodeTable, opField r.pattern = op := by
  decide

theorem encodingRow (i : Instr) : Laws.EncodingRow.Statement i := by
  cases i with
  | nop => exact Laws.EncodingRow.nop
  | clear => exact Laws.EncodingRow.clear
  | fold c => exact Laws.EncodingRow.fold c
  | next => exact Laws.EncodingRow.next
  | rdw k => exact Laws.EncodingRow.rdw k
  | rdidx => exact Laws.EncodingRow.rdidx
  | rsvd6 => exact Laws.EncodingRow.rsvd6
  | rsvd7 => exact Laws.EncodingRow.rsvd7

/-- A command's mnemonic is the one of the row with its op. -/
theorem mnemonic_of_row {r : OpcodeRow} (hr : r ∈ opcodeTable) {i : Instr} (h : opField r.pattern = i.op) :
    r.mnemonic = i.mnemonic := by
  obtain ⟨q, hq, hname, hadmits⟩ := encodingRow i
  have hop : i.op = opField q.pattern := by rw [← opField_encode]; exact (admits_iff hq _).mp hadmits
  rw [row_eq_of_op_eq r hr q hq (h.trans hop), hname]

end Sys2Proof

namespace Sys2Proof.Proofs
open Sys2Proof.Machine

/-- Settles O8. The word's op has a row, which admits the word and no other row does, and which carries the name of the decoded
command, since that has the same op. -/
theorem decoderIsTotalOverTheOpcodeMap : Obligations.DecoderIsTotalOverTheOpcodeMap := by
  refine ⟨?oneRow, ?opDecides, exists_row_of_op, fun w s => exec_eq_next (decode w) s⟩
  case oneRow =>
    intro w
    obtain ⟨r, hr, hop⟩ := exists_row_of_op (opField w)
    refine ⟨r, hr, (admits_iff hr w).mpr hop.symm, mnemonic_of_row hr (hop.trans (op_decode w).symm), ?unique⟩
    intro r' hr' hadmits
    exact row_eq_of_op_eq r' hr' r hr (((admits_iff hr' w).mp hadmits).symm.trans hop.symm)
  case opDecides =>
    intro w w' hww
    obtain ⟨r, hr, hop⟩ := exists_row_of_op (opField w)
    have hw : r.mnemonic = (decode w).mnemonic := mnemonic_of_row hr (hop.trans (op_decode w).symm)
    have hw' : r.mnemonic = (decode w').mnemonic := mnemonic_of_row hr (hop.trans (hww.trans (op_decode w').symm))
    exact hw.symm.trans hw'

end Sys2Proof.Proofs
end

section
/-! Which data bits a command reads (rule R52). -/

namespace Sys2Proof

/-- An op other than FOLD's and RDW's reads no data bit. -/
theorem decodeFields_eq_of_op_ne {op : BitVec 3} (hfold : op ≠ 0b010#3) (hrdw : op ≠ 0b100#3) (data data' : Word) :
    decodeFields op data = decodeFields op data' := by
  rcases op_cases op with h | h | h | h | h | h | h | h
  case inr.inr.inl => exact absurd h hfold
  case inr.inr.inr.inr.inl => exact absurd h hrdw
  all_goals subst h; rfl

/-- An op below 6 is no reserved command's. -/
theorem decodeFields_ne_of_op_lt {op : BitVec 3} (h : op.toNat < 6) (data : Word) {i : Instr} (hi : 6 ≤ i.op.toNat) :
    decodeFields op data ≠ i := by
  intro heq
  rw [← heq, op_decodeFields] at hi
  omega

/-- A code point needs at most 21 bits (rule R52). -/
theorem toNat_lt_two_pow_21 (ch : Char) : ch.toNat < 2 ^ 21 := by
  rcases ch.valid with hlow | ⟨_, hhigh⟩
  · exact lt_trans hlow (by norm_num)
  · exact lt_trans hhigh (by norm_num)

namespace Machine

@[simp] theorem codePoint_toNat (ch : Char) : (codePoint ch).toNat = ch.toNat :=
  Nat.mod_eq_of_lt (lt_trans (toNat_lt_two_pow_21 ch) (by norm_num))

end Machine

end Sys2Proof

namespace Sys2Proof.Proofs
open Sys2Proof.Machine

/-- Settles O10. Every clause is one of the decoder on the two fields; an op below 6 raises nothing because what it decodes to
is not reserved. -/
theorem ignoredDataBitsAreDontCare : Obligations.IgnoredDataBitsAreDontCare := by
  refine ⟨?fold, ?rdw, ?rdwIgnores, ?others, ?raisesNothing, fun ch => ⟨codePoint_toNat ch, toNat_lt_two_pow_21 ch⟩⟩
  case fold =>
    intro c
    rw [decode_commandOf, decodeFields_fold]
  case rdw =>
    intro data
    rw [decode_commandOf, decodeFields_rdw]
  case rdwIgnores =>
    intro data data' h
    rw [decode_commandOf, decode_commandOf, decodeFields_rdw, decodeFields_rdw, h]
  case others =>
    intro op data data' hfold hrdw
    rw [decode_commandOf, decode_commandOf]
    exact decodeFields_eq_of_op_ne hfold hrdw data data'
  case raisesNothing =>
    intro op data s hop
    rw [decode_commandOf]
    obtain ⟨t, ht⟩ := exec_eq_next (decodeFields op data) s
    have h6 : decodeFields op data ≠ .rsvd6 := decodeFields_ne_of_op_lt hop data (by decide)
    have h7 : decodeFields op data ≠ .rsvd7 := decodeFields_ne_of_op_lt hop data (by decide)
    exact ⟨t, ht, exec_err_of_not_reserved ht h6 h7⟩

end Sys2Proof.Proofs
end

section
/-! The pseudo-instructions: SEED as CLEAR and FOLDs, DRAW as NEXTs (rules R58, R59, R102). -/

namespace Sys2Proof.Machine

/-- The host reads one word per command of any sequence, and the sequence runs to its end. -/
theorem runCommands_eq_next (cs : List Instr) (s : State) : ∃ r, runCommands cs s = .next r ∧ r.1.length = cs.length := by
  induction cs generalizing s with
  | nil => exact ⟨_, runCommands_nil s, rfl⟩
  | cons i rest ih =>
    obtain ⟨t, ht⟩ := exec_eq_next i s
    obtain ⟨r, hr, hlen⟩ := ih t
    refine ⟨(t.outData :: r.1, r.2), ?_, congrArg (· + 1) hlen⟩
    rw [runCommands_cons, issue_eq_exec, ht, andThen_next, hr, andThen_next]

/-- One command alone: its meaning, and OUT after it. -/
theorem runCommands_singleton (i : Instr) (s : State) :
    runCommands [i] s = andThen (exec i s) fun t => .next ([t.outData], t) := by
  rw [runCommands_cons, issue_eq_exec]
  rfl

@[simp] theorem length_drawCommands (n : Nat) : (drawCommands n).length = n := List.length_replicate

theorem drawCommands_succ (n : Nat) : drawCommands (n + 1) = drawCommands n ++ [.next] := List.replicate_succ'

@[simp] theorem drawMany_zero (s : State) : drawMany 0 s = .next ([], s) := rfl

theorem drawMany_eq_next (n : Nat) (s : State) : ∃ r, drawMany n s = .next r ∧ r.1.length = n := by
  obtain ⟨r, hr, hlen⟩ := runCommands_eq_next (drawCommands n) s
  exact ⟨r, hr, hlen.trans (length_drawCommands n)⟩

/-- One draw more: a NEXT after the others, and its output word at the end. -/
theorem drawMany_succ (n : Nat) (s : State) :
    drawMany (n + 1) s = andThen (drawMany n s) fun r => andThen (exec .next r.2) fun t => .next (r.1 ++ [t.outData], t) := by
  rw [drawMany, drawCommands_succ, runCommands_append]
  simp only [runCommands_singleton, andThen_assoc, andThen_next]
  rfl

/-- A character up to U+FFFF is one UTF-16 code unit, its code point (rule R102). -/
theorem utf16Units_of_lt {ch : Char} (h : ch.toNat < 0x10000) : utf16Units ch = [codePoint ch] := if_pos h

/-- Up to U+FFFF both values of CHAR_UNIT give the code points. -/
theorem charCodes_of_lt (u : CharUnit) {s : List Char} (h : ∀ ch ∈ s, ch.toNat < 0x10000) :
    charCodes u s = s.map codePoint := by
  cases u with
  | codePoint => rfl
  | utf16Unit =>
    calc s.flatMap utf16Units
      _ = s.flatMap fun ch => [codePoint ch] := List.flatMap_congr fun ch hch => utf16Units_of_lt (h ch hch)
      _ = s.map codePoint := List.map_eq_flatMap.symm

theorem lineCommands_seed (u : CharUnit) (s : List Char) : lineCommands u (.seed s) = .clear :: (charCodes u s).map .fold := rfl

end Sys2Proof.Machine

namespace Sys2Proof.Proofs
open Sys2Proof.Machine

/-- Settles O32. DRAW n+1 runs DRAW n and then one NEXT, and both answer a next state. -/
theorem drawIssuesNextCommands : Obligations.DrawIssuesNextCommands := by
  refine ⟨fun _ _ => rfl, drawMany_zero, ?oneMore⟩
  case oneMore =>
    intro n s
    obtain ⟨r, hr, hlen⟩ := drawMany_eq_next n s
    obtain ⟨t, ht⟩ := exec_eq_next .next r.2
    refine ⟨r, t, hr, hlen, ht, ?_⟩
    rw [drawMany_succ, hr, andThen_next, ht, andThen_next]

/-- Settles O44. The characters of abc are below U+10000, where the two values of CHAR_UNIT agree. -/
theorem seedLineStandsForClearAndFolds : Obligations.SeedLineStandsForClearAndFolds := by
  refine ⟨lineCommands_seed, fun _ => rfl, ?examples⟩
  case examples =>
    intro u
    have hcodes : charCodes u ['a', 'b', 'c'] = [0x61#32, 0x62#32, 0x63#32] := charCodes_of_lt u (by simp)
    have habc : lineCommands u (.seed ['a', 'b', 'c']) = [.clear, .fold 0x61#32, .fold 0x62#32, .fold 0x63#32] := by
      rw [lineCommands_seed, hcodes]
      rfl
    refine ⟨?empty, habc, ?encoded⟩
    case empty => rw [lineCommands_seed, charCodes_of_lt u (by simp)]; rfl
    case encoded => rw [habc]; decide

end Sys2Proof.Proofs
end

section
/-! The value a FOLD writes, as a number: shifting by 5 multiplies by 32, so the fold is `31 * w + c` (rules R71, R72). -/

namespace Sys2Proof.Machine

theorem shl_five_eq_mul (w : Word) : shl w 5 = 32#32 * w := by
  apply BitVec.eq_of_toNat_eq
  rw [shl_toNat, BitVec.toNat_mul, Nat.mul_comm]
  rfl

theorem foldWord_eq_mul_add (w c : Word) : foldWord w c = 31#32 * w + c := by
  have hsub : 32#32 * w - w = 31#32 * w := by
    rw [show (32#32 : Word) = 31#32 + 1#32 from rfl, BitVec.add_mul, BitVec.one_mul, BitVec.add_sub_cancel]
  rw [foldWord, foldShift, shl_five_eq_mul, hsub]

theorem foldWord_toNat (w c : Word) : (foldWord w c).toNat = (31 * w.toNat + c.toNat) % 2 ^ 32 := by
  rw [foldWord_eq_mul_add, BitVec.toNat_add, BitVec.toNat_mul]
  exact Nat.mod_add_mod _ _ _

theorem foldWord_toInt (w c : Word) : (foldWord w c).toInt = (31 * w.toInt + c.toInt).bmod (2 ^ 32) := by
  rw [foldWord_eq_mul_add, BitVec.toInt_add, BitVec.toInt_mul, Int.bmod_add_bmod]
  rfl

/-- A shift left by 5 drops bits 27 to 31 (rule R71). -/
theorem shl_five_and_mask (w : Word) : shl w 5 = shl (w &&& 0x07FFFFFF#32) 5 := by
  have hmask : (w &&& 0x07FFFFFF#32).toNat = w.toNat % 2 ^ 27 := by
    rw [BitVec.toNat_and]
    exact Nat.and_two_pow_sub_one_eq_mod w.toNat 27
  apply BitVec.eq_of_toNat_eq
  rw [shl_toNat, shl_toNat, hmask]
  omega

end Sys2Proof.Machine

namespace Sys2Proof.Proofs
open Sys2Proof.Machine

/-- Settles O16. The statement's expression is `foldWord w c`, in its three readings. -/
theorem foldIsThirtyOneTimesPlusCode : Obligations.FoldIsThirtyOneTimesPlusCode :=
  fun w c => ⟨foldWord_eq_mul_add w c, foldWord_toNat w c, foldWord_toInt w c⟩

end Sys2Proof.Proofs
end

section
/-! CLEAR, and what may follow it without touching OUT (rule R70). -/

namespace Sys2Proof.Machine

/-- The commands that write OUT (rule R24). -/
theorem exec_out_of_not_draw_or_readback {i : Instr} {s t : State} (h : exec i s = .next t) (hnext : i ≠ .next)
    (hrdidx : i ≠ .rdidx) (hrdw : ∀ k, i ≠ .rdw k) : t.out = s.out := by
  cases i with
  | next => exact absurd rfl hnext
  | rdidx => exact absurd rfl hrdidx
  | rdw k => exact absurd rfl (hrdw k)
  | fold c =>
    rw [exec_fold, Host.Outcome.next.injEq] at h
    rw [← h, setFidx_out, setW_out]
  | nop => cases h; rfl
  | clear => cases h; rfl
  | rsvd6 => cases h; rfl
  | rsvd7 => cases h; rfl

theorem afterCommands_keeps_out {cs : List Instr} (h : ∀ i ∈ cs, i ≠ .next ∧ i ≠ .rdidx ∧ ∀ k, i ≠ .rdw k) (s : State) :
    ∃ t, afterCommands cs s = .next t ∧ t.out = s.out := by
  induction cs generalizing s with
  | nil => exact ⟨s, afterCommands_nil s, rfl⟩
  | cons i rest ih =>
    obtain ⟨⟨hnext, hrdidx, hrdw⟩, hrest⟩ := List.forall_mem_cons.mp h
    obtain ⟨u, hu⟩ := exec_eq_next i s
    obtain ⟨t, ht, hout⟩ := ih hrest u
    refine ⟨t, ?_, hout.trans (exec_out_of_not_draw_or_readback hu hnext hrdidx hrdw)⟩
    rw [afterCommands_cons, hu, andThen_next, ht]

end Sys2Proof.Machine

namespace Sys2Proof.Proofs
open Sys2Proof.Machine

/-- Settles O14. CLEAR is among the commands that do not write OUT, so a run that begins with it is one of them whole. -/
theorem clearStartsASeed : Obligations.ClearStartsASeed := by
  refine ⟨exec_clear, rfl, ?decodes, ?twice, exec_clear State.reset, ?keepsOut, fun s => exec_clear _⟩
  case decodes =>
    intro data
    rw [decode_commandOf, decodeFields_clear]
  case twice =>
    intro s
    simp only [afterCommands_cons, exec_clear, andThen_next, afterCommands_nil]
    rfl
  case keepsOut =>
    intro cs s hcs
    have hclear : Instr.clear ≠ .next ∧ Instr.clear ≠ .rdidx ∧ ∀ k, Instr.clear ≠ .rdw k := by simp
    exact afterCommands_keeps_out (List.forall_mem_cons.mpr ⟨hclear, hcs⟩) s

end Sys2Proof.Proofs
end

section
/-! The state after a FOLD: one word and FIDX change, and nothing else (rule R71). -/

namespace Sys2Proof.Machine

/-- The canonical FOLD word is the row's pattern with the code in the data field (rule R53). -/
theorem encode_fold (c : Word) : encode (.fold c) = 0x200000000#35 ||| c.setWidth 35 := by
  have happend : encode (.fold c) = (0b010#3).shiftLeftZeroExtend 32 ||| c.setWidth' (by decide) :=
    BitVec.append_def 0b010#3 c
  have hpattern : (0b010#3).shiftLeftZeroExtend 32 = 0x200000000#35 := by decide
  rw [happend, hpattern, BitVec.setWidth'_eq]

/-- The state FOLD c answers. -/
def State.folded (s : State) (c : Word) : State :=
  (s.setW s.fidx (foldWord (s.getW s.fidx) c)).setFidx (s.fidx + 1#2)

theorem exec_fold_eq_folded (c : Word) (s : State) : exec (.fold c) s = .next (s.folded c) := exec_fold c s

variable (s : State) (c : Word)

@[simp] theorem folded_fidx : (s.folded c).fidx = s.fidx + 1#2 := rfl

theorem folded_fidx_toNat : (s.folded c).fidx.toNat = (s.fidx.toNat + 1) % 4 := by
  rw [folded_fidx, BitVec.toNat_add]
  rfl

@[simp] theorem folded_out : (s.folded c).out = s.out := by rw [State.folded, setFidx_out, setW_out]
@[simp] theorem folded_err : (s.folded c).err = s.err := by rw [State.folded, setFidx_err, setW_err]
@[simp] theorem folded_inputs : (s.folded c).inputs = s.inputs := by rw [State.folded, setFidx_inputs, setW_inputs]

@[simp] theorem getW_folded_self : (s.folded c).getW s.fidx = foldWord (s.getW s.fidx) c := by
  rw [State.folded, getW_setFidx, getW_setW_self]

theorem getW_folded_of_ne {j : BitVec 2} (h : j ≠ s.fidx) : (s.folded c).getW j = s.getW j := by
  rw [State.folded, getW_setFidx, getW_setW_of_ne s _ _ _ h]

end Sys2Proof.Machine

namespace Sys2Proof.Proofs
open Sys2Proof.Machine

/-- Settles O15. The statement's `(shl(w, 5) - w) + c` is `foldWord w c`; NEXT keeps FIDX, so a FOLD after it writes the word
FIDX named before it. -/
theorem foldFoldsOneCode : Obligations.FoldFoldsOneCode := by
  refine ⟨?folds, ?words, ?encodes, shl_five_and_mask, ?overflow, ?zeroCode, ?afterNext, ?ruleExample⟩
  case folds =>
    intro c s
    exact ⟨s.folded c, exec_fold_eq_folded c s, getW_folded_self s c, fun j hj => getW_folded_of_ne s c hj,
      folded_fidx_toNat s c, folded_out s c, folded_err s c, folded_inputs s c⟩
  case words =>
    intro s
    exact ⟨getW_zero s, getW_one s, getW_two s, getW_three s⟩
  case encodes =>
    intro c
    exact ⟨encode_fold c, decode_commandOf 0b010#3 c⟩
  case overflow => decide
  case zeroCode =>
    intro s hzero
    refine ⟨s.folded 0#32, exec_fold_eq_folded _ s, ?_, folded_fidx s _⟩
    rw [getW_folded_self, hzero]
    rfl
  case afterNext =>
    intro c s
    exact ⟨_, _, rfl, exec_fold_eq_folded c _, getW_folded_self _ c⟩
  case ruleExample =>
    intro s
    have hword : foldWord 0x61#32 0x65#32 = 0x00000C24#32 := by decide
    rw [exec_fold, getW_zero, setW_zero, hword]
    rfl

end Sys2Proof.Proofs
end

section
/-! Seeding with any codes: RB's loop and the closed sum of rule R73, word by word. -/

namespace Sys2Proof.Machine

/-- One turn of RB's loop as word j sees it: the code of index i is folded into word i mod 4 (rule R73). -/
def loopStep (j : Nat) (w : Word) (ci : Word × Nat) : Word := if ci.2 % 4 = j then foldWord w ci.1 else w

/-- Word j after RB's loop over the codes, from 0. -/
def loopWord (j : Nat) (codes : List Word) : Word := codes.zipIdx.foldl (loopStep j) 0#32

/-- How many of the first n indices are j modulo 4 (rule R73's k). -/
def foldCount (j n : Nat) : Nat := (List.range n).countP fun i => i % 4 == j

/-- Rule R73's sum for word j, before its reduction modulo 2^32. -/
def seedSum (j : Nat) (codes : List Word) : Nat :=
  ∑ m ∈ Finset.range (foldCount j codes.length),
    (codes.getD (j + 4 * m) 0#32).toNat * 31 ^ (foldCount j codes.length - 1 - m)

/-! The run: one folded state per code -/

theorem afterCommands_folds (codes : List Word) (s : State) :
    afterCommands (codes.map .fold) s = .next (codes.foldl State.folded s) := by
  induction codes generalizing s with
  | nil => exact afterCommands_nil s
  | cons c rest ih => rw [List.map_cons, afterCommands_cons, exec_fold_eq_folded, andThen_next, ih, List.foldl_cons]

theorem afterCommands_seedCommands (codes : List Word) (s : State) :
    afterCommands (seedCommands codes) s = .next (codes.foldl State.folded (s.clearWords.setFidx 0#2)) := by
  rw [seedCommands, afterCommands_cons, exec_clear, andThen_next, afterCommands_folds]

/-- The end of a run is the state the host reads its last word in. -/
theorem runCommands_of_afterCommands {cs : List Instr} {s t : State} (h : afterCommands cs s = .next t) :
    ∃ r, runCommands cs s = .next r ∧ r.2 = t := by
  obtain ⟨r, hr, hrt⟩ := andThen_eq_next.mp h
  exact ⟨r, hr, Host.Outcome.next.inj hrt⟩

theorem foldl_folded_fidx_toNat (codes : List Word) (s : State) :
    (codes.foldl State.folded s).fidx.toNat = (s.fidx.toNat + codes.length) % 4 := by
  induction codes generalizing s with
  | nil => exact (Nat.mod_eq_of_lt s.fidx.isLt).symm
  | cons c rest ih =>
    rw [List.foldl_cons, ih, folded_fidx_toNat, List.length_cons]
    omega

/-- Folding touches no field but the words and FIDX. -/
theorem foldl_folded_frame (codes : List Word) (s : State) :
    (codes.foldl State.folded s).out = s.out ∧ (codes.foldl State.folded s).err = s.err ∧
      (codes.foldl State.folded s).inputs = s.inputs := by
  induction codes generalizing s with
  | nil => exact ⟨rfl, rfl, rfl⟩
  | cons c rest ih => simpa using ih (s.folded c)

/-! RB's loop: FIDX is the index of the next code modulo 4 -/

theorem getW_folded_eq_loopStep {s : State} {n : Nat} (h : s.fidx.toNat = n % 4) (c : Word) (j : BitVec 2) :
    (s.folded c).getW j = loopStep j.toNat (s.getW j) (c, n) := by
  rw [loopStep, ← h]
  by_cases hj : j = s.fidx
  · rw [hj, getW_folded_self, if_pos rfl]
  · have hne : s.fidx.toNat ≠ j.toNat := fun heq => hj (BitVec.eq_of_toNat_eq heq.symm)
    rw [getW_folded_of_ne s c hj, if_neg hne]

theorem getW_foldl_folded (codes : List Word) {s : State} {n : Nat} (h : s.fidx.toNat = n % 4) (j : BitVec 2) :
    (codes.foldl State.folded s).getW j = (codes.zipIdx n).foldl (loopStep j.toNat) (s.getW j) := by
  induction codes generalizing s n with
  | nil => rfl
  | cons c rest ih =>
    have hnext : (s.folded c).fidx.toNat = (n + 1) % 4 := by rw [folded_fidx_toNat, h, Nat.mod_add_mod]
    rw [List.foldl_cons, List.zipIdx_cons, List.foldl_cons, ih hnext, getW_folded_eq_loopStep h]

theorem getW_clearWords (s : State) (j : BitVec 2) : s.clearWords.getW j = 0#32 := by
  rcases index_cases j with h | h | h | h <;> subst h <;> rfl

theorem getW_seeded (codes : List Word) (s : State) (j : BitVec 2) :
    (codes.foldl State.folded (s.clearWords.setFidx 0#2)).getW j = loopWord j.toNat codes := by
  have hstart : (s.clearWords.setFidx 0#2).fidx.toNat = 0 % 4 := rfl
  rw [getW_foldl_folded codes hstart, getW_setFidx, getW_clearWords, loopWord]

/-! The closed sum: a code added at the end either is the next of word j, or leaves word j's sum as it was -/

theorem foldCount_succ (j n : Nat) : foldCount j (n + 1) = foldCount j n + if n % 4 = j then 1 else 0 := by
  simp [foldCount, List.range_succ, List.countP_append, List.countP_singleton]

theorem foldCount_eq_div {j : Nat} (hj : j < 4) (n : Nat) : foldCount j n = (n + 3 - j) / 4 := by
  induction n with
  | zero => rw [Nat.div_eq_of_lt (by omega)]; rfl
  | succ n ih =>
    rw [foldCount_succ, ih]
    split <;> omega

/-- The codes of word j stand inside the list. -/
theorem index_lt_of_lt_foldCount {j n m : Nat} (hj : j < 4) (h : m < foldCount j n) : j + 4 * m < n := by
  rw [foldCount_eq_div hj] at h
  omega

theorem loopWord_concat_of_eq {j : Nat} {codes : List Word} (h : codes.length % 4 = j) (c : Word) :
    loopWord j (codes ++ [c]) = foldWord (loopWord j codes) c := by
  rw [loopWord, List.zipIdx_append, List.foldl_append, Nat.zero_add]
  exact if_pos h

theorem loopWord_concat_of_ne {j : Nat} {codes : List Word} (h : codes.length % 4 ≠ j) (c : Word) :
    loopWord j (codes ++ [c]) = loopWord j codes := by
  rw [loopWord, List.zipIdx_append, List.foldl_append, Nat.zero_add]
  exact if_neg h

theorem seedSum_concat_of_ne {j : Nat} (hj : j < 4) {codes : List Word} (h : codes.length % 4 ≠ j) (c : Word) :
    seedSum j (codes ++ [c]) = seedSum j codes := by
  have hcount : foldCount j (codes ++ [c]).length = foldCount j codes.length := by
    rw [List.length_append, List.length_singleton, foldCount_succ, if_neg h, Nat.add_zero]
  rw [seedSum, seedSum, hcount]
  refine Finset.sum_congr rfl fun m hm => ?_
  rw [List.getD_append _ _ _ _ (index_lt_of_lt_foldCount hj (Finset.mem_range.mp hm))]

/-- The code is the next of word j: every earlier term gains a factor 31. -/
theorem seedSum_concat_of_eq {j : Nat} {codes : List Word} (h : codes.length % 4 = j) (c : Word) :
    seedSum j (codes ++ [c]) = 31 * seedSum j codes + c.toNat := by
  have hj : j < 4 := by omega
  have hcount : foldCount j (codes ++ [c]).length = foldCount j codes.length + 1 := by
    rw [List.length_append, List.length_singleton, foldCount_succ, if_pos h]
  have hlast : j + 4 * foldCount j codes.length = codes.length := by
    rw [foldCount_eq_div hj]
    omega
  rw [seedSum, hcount, Finset.sum_range_succ, hlast, seedSum, Finset.mul_sum]
  congr 1
  · refine Finset.sum_congr rfl fun m hm => ?_
    have hm := Finset.mem_range.mp hm
    have hpow : foldCount j codes.length + 1 - 1 - m = foldCount j codes.length - 1 - m + 1 := by omega
    rw [List.getD_append _ _ _ _ (index_lt_of_lt_foldCount hj hm), hpow, pow_succ]
    ring
  · simp

theorem loopWord_toNat {j : Nat} (hj : j < 4) (codes : List Word) :
    (loopWord j codes).toNat = seedSum j codes % 2 ^ 32 := by
  induction codes using List.reverseRecOn with
  | nil => rfl
  | append_singleton codes c ih =>
    by_cases h : codes.length % 4 = j
    · rw [loopWord_concat_of_eq h, seedSum_concat_of_eq h, foldWord_toNat, ih]
      omega
    · rw [loopWord_concat_of_ne h, seedSum_concat_of_ne hj h, ih]

end Sys2Proof.Machine

namespace Sys2Proof.Proofs
open Sys2Proof.Machine

/-- Settles O29. A seeding run folds code after code from the cleared state, where FIDX is 0; word j of that is RB's loop, and
the loop's value is the sum. -/
theorem seedingFoldsEveryCode : Obligations.SeedingFoldsEveryCode := by
  refine ⟨?anyCodes, fun s => ?abcde, fun s => ?test⟩
  case anyCodes =>
    intro codes s
    obtain ⟨r, hr, hstate⟩ := runCommands_of_afterCommands (afterCommands_seedCommands codes s)
    obtain ⟨hout, herr, hinputs⟩ := foldl_folded_frame codes (s.clearWords.setFidx 0#2)
    have hfidx : r.2.fidx.toNat = codes.length % 4 := by
      rw [hstate, foldl_folded_fidx_toNat, setFidx_fidx, BitVec.toNat_ofNat, Nat.zero_mod, Nat.zero_add]
    have hword (j : BitVec 2) : r.2.getW j = loopWord j.toNat codes := by rw [hstate, getW_seeded]
    rw [← hstate] at hout herr hinputs
    exact ⟨r, hr, hfidx, hout, herr, hinputs, fun j =>
      ⟨hword j, (congrArg BitVec.toNat (hword j)).trans (loopWord_toNat j.isLt codes)⟩⟩
  case abcde | test =>
    rw [afterCommands_seedCommands]
    simp [State.folded, State.setFidx, State.clearWords, codePoint, foldWord, foldShift, shl]

end Sys2Proof.Proofs
end

section
/-! The shifts against XOR: both are linear over it, and the arithmetic one keeps the sign bit (rules R9, R83, R85). -/

namespace Sys2Proof.Machine

theorem shl_xor (a b : Word) (n : Nat) : shl (a ^^^ b) n = shl a n ^^^ shl b n := BitVec.shiftLeft_xor_distrib a b n

theorem shl_shl (a : Word) (m n : Nat) : shl (shl a m) n = shl a (m + n) := (BitVec.shiftLeft_add a m n).symm

theorem shl_eq_zero (a : Word) {n : Nat} (h : 32 ≤ n) : shl a n = 0#32 := BitVec.shiftLeft_eq_zero h

/-- A left shift by n looks at the low 32 - n bits only. -/
theorem shl_eq_shl_of_mod_eq {a b : Word} {n : Nat} (hn : n ≤ 32) (h : a.toNat % 2 ^ (32 - n) = b.toNat % 2 ^ (32 - n)) :
    shl a n = shl b n := by
  have hpow : 2 ^ 32 = 2 ^ (32 - n) * 2 ^ n := by rw [← pow_add, Nat.sub_add_cancel hn]
  apply BitVec.eq_of_toNat_eq
  rw [shl_toNat, shl_toNat, hpow, Nat.mul_mod_mul_right, Nat.mul_mod_mul_right, h]

theorem asr_xor (a b : Word) (n : Nat) : asr (a ^^^ b) n = asr a n ^^^ asr b n := BitVec.sshiftRight_xor_distrib a b n

@[simp] theorem asr_msb (x : Word) (k : Nat) : (asr x k).msb = x.msb := BitVec.msb_sshiftRight

theorem getLsbD_31 (x : Word) : x.getLsbD 31 = x.msb := (BitVec.msb_eq_getLsbD_last x).symm

/-- The two sign bits cancel (rule R83). -/
@[simp] theorem msb_xor_asr (x : Word) (k : Nat) : (x ^^^ asr x k).msb = false := by
  rw [BitVec.msb_xor, asr_msb, Bool.xor_self]

theorem xor_asr_xor (a b : Word) (n : Nat) :
    (a ^^^ b) ^^^ asr (a ^^^ b) n = (a ^^^ asr a n) ^^^ (b ^^^ asr b n) := by
  rw [asr_xor]
  ac_rfl

/-- A word that a shift by 8 leaves as it is equals, as an integer, its own floor quotient by 256: it is 0 or -1. -/
theorem xor_asr_eight_eq_zero_iff (t : Word) : t ^^^ asr t 8 = 0#32 ↔ t = 0x00000000#32 ∨ t = 0xFFFFFFFF#32 := by
  rw [BitVec.xor_eq_zero_iff]
  constructor
  · intro h
    have hdiv : t.toInt = t.toInt / 2 ^ 8 := (congrArg BitVec.toInt h).trans (asr_toInt t 8)
    have hint : t.toInt = 0 ∨ t.toInt = -1 := by omega
    exact hint.imp BitVec.eq_of_toInt_eq BitVec.eq_of_toInt_eq
  · rintro (rfl | rfl) <;> decide

/-- On a negative word the two right shifts differ at bit 31 (rule R80's corner case). -/
theorem asr_ne_lsr {x : Word} {n : Nat} (hn : 0 < n) (hx : x.msb = true) : asr x n ≠ lsr x n := by
  intro h
  have hasr : (asr x n).getLsbD 31 = true := by rw [getLsbD_31, asr_msb, hx]
  have hlsr : (lsr x n).getLsbD 31 = false := lsr_getLsbD_of_ge x n (by omega)
  exact absurd (hasr.symm.trans ((congrArg (·.getLsbD 31) h).trans hlsr)) (by decide)

end Sys2Proof.Machine
end

section
/-! NEXT's arithmetic: t is a bijective linear function of W[0], n has bit 31 = 0, and one XOR of W[0] does not change n
(rules R80, R83, R85). -/

namespace Sys2Proof.Machine

theorem xorshiftT_xor (a b : Word) : xorshiftT (a ^^^ b) = xorshiftT a ^^^ xorshiftT b := by
  rw [xorshiftT, shl_xor, xorshiftT, xorshiftT]
  ac_rfl

/-- Shifting by 11 three times leaves nothing, so the inverse of `w XOR shl(w, 11)` has three terms (rule R85). -/
def xorshiftTInv (t : Word) : Word := t ^^^ shl t 11 ^^^ shl t 22

theorem shl_three_eq_zero (w : Word) : shl (shl (shl w 11) 11) 11 = 0#32 := by
  rw [shl_shl, shl_shl, shl_eq_zero w (by decide)]

theorem xorshiftTInv_eq (t : Word) : xorshiftTInv t = t ^^^ shl t 11 ^^^ shl (shl t 11) 11 := by
  rw [shl_shl, xorshiftTInv]

theorem xorshiftTInv_xorshiftT (w : Word) : xorshiftTInv (xorshiftT w) = w := by
  rw [xorshiftTInv_eq, xorshiftT, xsA, shl_xor, shl_xor, shl_three_eq_zero, BitVec.xor_zero, ← BitVec.xor_assoc,
    xor_cancel_right, xor_cancel_right]

theorem xorshiftT_xorshiftTInv (t : Word) : xorshiftT (xorshiftTInv t) = t := by
  rw [xorshiftTInv_eq, xorshiftT, xsA, shl_xor, shl_xor, shl_three_eq_zero, BitVec.xor_zero, BitVec.xor_assoc t,
    xor_cancel_right]

/-- n is two words XORed with their own arithmetic shifts (rule R83). -/
theorem xorshiftN_eq (x0 x3 : Word) :
    xorshiftN x0 x3 = (x3 ^^^ asr x3 xsB) ^^^ (xorshiftT x0 ^^^ asr (xorshiftT x0) xsC) :=
  BitVec.xor_assoc _ _ _

@[simp] theorem xorshiftN_msb (x0 x3 : Word) : (xorshiftN x0 x3).msb = false := by
  rw [xorshiftN_eq, BitVec.msb_xor, msb_xor_asr, msb_xor_asr]
  rfl

@[simp] theorem xorshiftN_zero : xorshiftN 0#32 0#32 = 0#32 := by decide

/-- The word that t's map takes to 0xFFFFFFFF, the other word of the kernel of `t XOR asr(t, 8)` (rule R85). -/
def mergeMask : Word := 0xFFC007FF#32

theorem xorshiftT_mergeMask : xorshiftT mergeMask = 0xFFFFFFFF#32 := by decide

theorem xorshiftN_xor_mergeMask (x0 x3 : Word) : xorshiftN (x0 ^^^ mergeMask) x3 = xorshiftN x0 x3 := by
  have hkernel : xorshiftT mergeMask ^^^ asr (xorshiftT mergeMask) xsC = 0#32 :=
    (xor_asr_eight_eq_zero_iff _).mpr (.inr xorshiftT_mergeMask)
  rw [xorshiftN_eq, xorshiftN_eq, xorshiftT_xor, xor_asr_xor, hkernel, BitVec.xor_zero]

end Sys2Proof.Machine
end

section
/-! The state after a NEXT, and after any number of them (rules R59, R80). -/

namespace Sys2Proof.Machine

/-- The state NEXT answers. -/
def State.drawn (s : State) : State := (s.shiftWords (xorshiftN s.w0 s.w3)).setOut (xorshiftN s.w0 s.w3)

theorem exec_next (s : State) : exec .next s = .next s.drawn := rfl

variable (s : State)

@[simp] theorem drawn_w0 : s.drawn.w0 = s.w1 := rfl
@[simp] theorem drawn_w1 : s.drawn.w1 = s.w2 := rfl
@[simp] theorem drawn_w2 : s.drawn.w2 = s.w3 := rfl
@[simp] theorem drawn_w3 : s.drawn.w3 = xorshiftN s.w0 s.w3 := rfl
@[simp] theorem drawn_fidx : s.drawn.fidx = s.fidx := rfl
@[simp] theorem drawn_out : s.drawn.out = xorshiftN s.w0 s.w3 := rfl
@[simp] theorem drawn_err : s.drawn.err = s.err := rfl
@[simp] theorem drawn_inputs : s.drawn.inputs = s.inputs := rfl

/-- n draws: OUT after each, and the state n NEXTs on. -/
theorem drawMany_eq (n : Nat) :
    drawMany n s = .next ((List.range n).map fun k => (State.drawn^[k + 1] s).out, State.drawn^[n] s) := by
  induction n with
  | zero => rfl
  | succ n ih =>
    rw [drawMany_succ, ih, andThen_next, exec_next, andThen_next, List.range_succ, List.map_append,
      ← Function.iterate_succ_apply' State.drawn]
    rfl

/-- A NEXT makes W[3]'s sign bit 0, and three more move that word down to W[0] (rule R83). -/
theorem getW_four_drawn_msb (j : BitVec 2) : (s.drawn.drawn.drawn.drawn.getW j).msb = false := by
  rcases index_cases j with h | h | h | h <;> subst h <;> simp

theorem iterate_drawn_w3_msb {k : Nat} (hk : 1 ≤ k) : (State.drawn^[k] s).w3.msb = false := by
  obtain ⟨m, rfl⟩ := Nat.exists_eq_add_of_le' hk
  rw [Function.iterate_succ_apply', drawn_w3, xorshiftN_msb]

theorem getW_iterate_drawn_msb {k : Nat} (hk : 4 ≤ k) (j : BitVec 2) : ((State.drawn^[k] s).getW j).msb = false := by
  obtain ⟨m, rfl⟩ := Nat.exists_eq_add_of_le' hk
  simp only [Function.iterate_succ_apply', getW_four_drawn_msb]

/-- Two states that differ in W[0] by XOR with 0xFFC007FF have one successor (rule R85). -/
theorem drawn_xor_mergeMask : { s with w0 := s.w0 ^^^ mergeMask }.drawn = s.drawn := by
  simp only [State.drawn, xorshiftN_xor_mergeMask]
  rfl

end Sys2Proof.Machine
end

section
/-! The zero state: NEXT and FOLD 0 keep the four words 0 (rules R71, R84). -/

namespace Sys2Proof.Machine

/-- All four words are 0. -/
def State.ZeroWords (s : State) : Prop := ∀ j, s.getW j = 0#32

theorem zeroWords_iff (s : State) : s.ZeroWords ↔ s.w0 = 0#32 ∧ s.w1 = 0#32 ∧ s.w2 = 0#32 ∧ s.w3 = 0#32 := by
  constructor
  · intro h
    exact ⟨h 0#2, h 1#2, h 2#2, h 3#2⟩
  · rintro ⟨h0, h1, h2, h3⟩ j
    rcases index_cases j with h | h | h | h <;> subst h <;> assumption

theorem zeroWords_setOut {s : State} (h : s.ZeroWords) (v : Word) : (s.setOut v).ZeroWords := h

theorem zeroWords_cleared (s : State) : (s.clearWords.setFidx 0#2).ZeroWords := getW_clearWords s

theorem drawn_of_zeroWords {s : State} (h : s.ZeroWords) : s.drawn = s.setOut 0#32 := by
  obtain ⟨w0, w1, w2, w3, fidx, out, err, inputs⟩ := s
  obtain ⟨rfl, rfl, rfl, rfl⟩ := (zeroWords_iff _).mp h
  simp only [State.drawn, xorshiftN_zero]
  rfl

theorem iterate_drawn_of_zeroWords {s : State} (h : s.ZeroWords) (n : Nat) : State.drawn^[n + 1] s = s.setOut 0#32 := by
  induction n with
  | zero => exact drawn_of_zeroWords h
  | succ n ih =>
    rw [Function.iterate_succ_apply', ih, drawn_of_zeroWords (zeroWords_setOut h _)]
    rfl

theorem zeroWords_folded {s : State} (h : s.ZeroWords) : (s.folded 0#32).ZeroWords := by
  intro j
  by_cases hj : j = s.fidx
  · rw [hj, getW_folded_self, h]
    rfl
  · rw [getW_folded_of_ne s _ hj, h]

theorem zeroWords_foldl_folded {codes : List Word} (hcodes : ∀ c ∈ codes, c = 0#32) {s : State} (h : s.ZeroWords) :
    (codes.foldl State.folded s).ZeroWords := by
  induction codes generalizing s with
  | nil => exact h
  | cons c rest ih =>
    obtain ⟨rfl, hrest⟩ := List.forall_mem_cons.mp hcodes
    exact ih hrest (zeroWords_folded h)

end Sys2Proof.Machine
end

section
/-! The returned value of a word with bit 31 = 0 (rules R81, R83). -/

namespace Sys2Proof.Machine

theorem toNat_le_of_msb_false {v : Word} (h : v.msb = false) : v.toNat ≤ 0x7FFFFFFF := by
  have := BitVec.msb_eq_false_iff_two_mul_lt.mp h
  omega

theorem drawValue_nonneg (v : Word) : 0 ≤ drawValue v := by
  rw [drawValue]
  positivity

theorem drawValue_le_of_msb_false {v : Word} (h : v.msb = false) : drawValue v ≤ 1 - 1 / 2 ^ 31 := by
  have hv : (v.toNat : Rat) ≤ 0x7FFFFFFF := by exact_mod_cast toNat_le_of_msb_false h
  rw [drawValue, outDen, div_le_iff₀ (by norm_num)]
  exact hv.trans (by norm_num)

end Sys2Proof.Machine
end

section
namespace Sys2Proof.Proofs
open Sys2Proof.Machine

/-- Settles O17. The first clause is NEXT's meaning; of the corner cases, the merged successor is that of the reset state and
the state 0xFFC007FF away from it. -/
theorem nextIsOneXorshiftStep : Obligations.NextIsOneXorshiftStep := by
  refine ⟨exec_next, rfl, ?decodes, fun x n hn _ hx => asr_ne_lsr hn hx, ?dropsTop, ?zero, ?merged, ?afterReset, ?afterClear,
    ?ruleExample⟩
  case decodes =>
    intro data
    rw [decode_commandOf, decodeFields_next]
  case dropsTop =>
    intro x
    have hmask : (x &&& 0x001FFFFF#32).toNat = x.toNat % 2 ^ 21 := by
      rw [BitVec.toNat_and]
      exact Nat.and_two_pow_sub_one_eq_mod x.toNat 21
    apply shl_eq_shl_of_mod_eq (by decide)
    rw [hmask, Nat.mod_mod]
  case zero =>
    intro s h0 h1 h2 h3
    rw [exec_next, drawn_of_zeroWords ((zeroWords_iff s).mpr ⟨h0, h1, h2, h3⟩)]
    rfl
  case merged =>
    refine ⟨State.reset, { State.reset with w0 := State.reset.w0 ^^^ mergeMask }, State.reset.drawn, by decide,
      exec_next _, ?_⟩
    rw [exec_next, drawn_xor_mergeMask]
  case afterReset => exact ⟨_, exec_next State.reset, xorshiftN_zero⟩
  case afterClear =>
    intro s
    refine ⟨(s.clearWords.setFidx 0#2).drawn, ?_, xorshiftN_zero⟩
    rw [afterCommands_cons, exec_clear, andThen_next, afterCommands_cons, exec_next, andThen_next, afterCommands_nil]
  case ruleExample =>
    intro s
    have hword : xorshiftN 0x61#32 0#32 = 0x00030B69#32 := by decide
    rw [exec_next, State.drawn, hword]
    rfl

/-- Settles O34. The new word is two words XORed with their own arithmetic shifts, so its sign bit is 0; four draws replace
all four words by such words. -/
theorem outputNeverReachesOne : Obligations.OutputNeverReachesOne := by
  simp only [Obligations.OutputNeverReachesOne, getLsbD_31]
  refine ⟨fun x k => ⟨asr_msb x k, msb_xor_asr x k⟩, ?oneDraw, ?manyDraws⟩
  case oneDraw =>
    intro s
    have hsign : s.drawn.out.msb = false := xorshiftN_msb s.w0 s.w3
    have hvalue : drawValue s.drawn.out ≤ 1 - 1 / 2 ^ 31 := drawValue_le_of_msb_false hsign
    exact ⟨s.drawn, exec_next s, hsign, toNat_le_of_msb_false hsign, drawValue_nonneg _, hvalue,
      hvalue.trans_lt (by norm_num)⟩
  case manyDraws =>
    intro k s
    refine ⟨_, drawMany_eq s k, fun hk => iterate_drawn_w3_msb s hk, fun hk j => ?_⟩
    have hsign := getW_iterate_drawn_msb s hk j
    exact ⟨hsign, BitVec.toInt_nonneg_of_msb_false hsign⟩

/-- Settles O35. From zero words every NEXT only writes 0 to OUT, and zero codes keep the cleared words 0; the last state is
merged with the zero state. -/
theorem zeroStateIsAFixedPoint : Obligations.ZeroStateIsAFixedPoint := by
  refine ⟨?draws, ?zeroCodes, ?mergedIntoZero⟩
  case draws =>
    intro n s h0 h1 h2 h3
    have hzero : s.ZeroWords := (zeroWords_iff s).mpr ⟨h0, h1, h2, h3⟩
    refine ⟨_, drawMany_eq s n, ?outputs, ?final⟩
    case outputs => simp [iterate_drawn_of_zeroWords hzero]
    case final =>
      cases n with
      | zero => rfl
      | succ n => exact iterate_drawn_of_zeroWords hzero n
  case zeroCodes =>
    intro codes s hcodes
    exact ⟨_, afterCommands_seedCommands codes s,
      (zeroWords_iff _).mp (zeroWords_foldl_folded hcodes (zeroWords_cleared s))⟩
  case mergedIntoZero =>
    intro s
    exact ⟨_, exec_next _, rfl, rfl, rfl, xorshiftN_xor_mergeMask 0#32 0#32⟩

/-- Settles O36. XOR with 0xFFC007FF complements t, which is in the kernel of `t XOR asr(t, 8)`; both examples are such merges,
with the state whose W[0] is 0. -/
theorem nextIsNotInjective : Obligations.NextIsNotInjective := by
  refine ⟨fun a b => xor_asr_xor a b 8, xor_asr_eight_eq_zero_iff, xorshiftTInv_xorshiftT, xorshiftT_xorshiftTInv,
    xorshiftT_mergeMask, ?merged, ?firstExample, ?secondExample⟩
  case merged =>
    intro s
    exact ⟨s.drawn, exec_next s, congrArg Host.Outcome.next (drawn_xor_mergeMask s)⟩
  case firstExample =>
    intro s x hx
    have hword : xorshiftN x 0x33#32 = 0x33#32 := by rcases hx with rfl | rfl <;> decide
    rw [exec_next, State.drawn, hword]
    rfl
  case secondExample =>
    intro s
    have hword : xorshiftN 0xFFC007FF#32 0#32 = 0#32 := xorshiftN_xor_mergeMask 0#32 0#32
    rw [exec_next, State.drawn, hword]
    rfl

/-- Settles O33. Each value is one evaluation of n; the logical shift's value stands beside it. -/
theorem arithmeticShiftCases : Obligations.ArithmeticShiftCases := by
  refine ⟨fun s => ?signOfW3, fun s => ?signOfT⟩
  case signOfW3 =>
    have hword : xorshiftN 0#32 0x80000000#32 = 0x7FFFF000#32 := by decide
    exact ⟨_, exec_next _, by decide, hword, by decide⟩
  case signOfT =>
    have hword : xorshiftN 0x80000000#32 0#32 = 0x7F800000#32 := by decide
    exact ⟨_, exec_next _, by decide, by decide, hword, by decide⟩

end Sys2Proof.Proofs
end

section
/-! The idle and readback commands: what NOP, RDW and RDIDX answer, and that any number of NOPs is no command at all
(rules R90 to R92). -/

namespace Sys2Proof.Machine

theorem exec_rdw (k : BitVec 2) (s : State) : exec (.rdw k) s = .next (s.setOut (s.getW k)) := rfl

theorem exec_rdidx (s : State) : exec .rdidx s = .next (s.setOut (zext32 s.fidx)) := rfl

/-- Latching into OUT what stands there already changes nothing. -/
@[simp] theorem setOut_out_self (s : State) : s.setOut s.out = s := rfl

@[simp] theorem zext32_toNat (k : BitVec 2) : (zext32 k).toNat = k.toNat := BitVec.toNat_setWidth_of_le (by decide)

@[simp] theorem afterCommands_replicate_nop (n : Nat) (s : State) :
    afterCommands (List.replicate n .nop) s = .next s := by
  induction n with
  | zero => exact afterCommands_nil s
  | succ n ih => rw [List.replicate_succ, afterCommands_cons, exec_nop, andThen_next, ih]

/-- A NEXT latches the word it puts into W[3], so reading W[3] back answers the state as it was (rule R91). -/
theorem exec_rdw_three_drawn (s : State) : exec (.rdw 3#2) s.drawn = .next s.drawn := by
  rw [exec_rdw, getW_three, drawn_w3, ← drawn_out, setOut_out_self]

/-- The canonical RDW word is the row's pattern with the index in the low bits (rule R53). -/
theorem encode_rdw (k : BitVec 2) : encode (.rdw k) = 0x400000000#35 ||| k.setWidth 35 := by
  rcases index_cases k with rfl | rfl | rfl | rfl <;> rfl

end Sys2Proof.Machine
end

section
/-! FIDX after a seed and its draws: FOLD counts it modulo 4, NEXT leaves it (rules R73, R92). -/

namespace Sys2Proof.Machine

theorem afterCommands_drawCommands (n : Nat) (s : State) :
    afterCommands (drawCommands n) s = .next (State.drawn^[n] s) := by
  rw [afterCommands, ← drawMany, drawMany_eq, andThen_next]

theorem iterate_drawn_fidx (n : Nat) (s : State) : (State.drawn^[n] s).fidx = s.fidx := by
  induction n with
  | zero => rfl
  | succ n ih => rw [Function.iterate_succ_apply', drawn_fidx, ih]

theorem seeded_fidx_toNat (codes : List Word) (s : State) :
    (codes.foldl State.folded (s.clearWords.setFidx 0#2)).fidx.toNat = codes.length % 4 := by
  rw [foldl_folded_fidx_toNat, setFidx_fidx, BitVec.toNat_ofNat, Nat.zero_mod, Nat.zero_add]

theorem afterCommands_seed_draws (codes : List Word) (n : Nat) (s : State) :
    ∃ t, afterCommands (seedCommands codes ++ drawCommands n) s = .next t ∧ t.fidx.toNat = codes.length % 4 := by
  refine ⟨State.drawn^[n] (codes.foldl State.folded (s.clearWords.setFidx 0#2)), ?run, ?index⟩
  case run => rw [afterCommands_append, afterCommands_seedCommands, andThen_next, afterCommands_drawCommands]
  case index => rw [iterate_drawn_fidx, seeded_fidx_toNat]

/-- RDIDX at the end of a run puts the index the run leaves into OUT. -/
theorem afterCommands_concat_rdidx {cs : List Instr} {s t : State} (h : afterCommands cs s = .next t) :
    afterCommands (cs ++ [.rdidx]) s = .next (t.setOut (zext32 t.fidx)) := by
  rw [afterCommands_append, h, andThen_next, afterCommands_cons, exec_rdidx, andThen_next, afterCommands_nil]

end Sys2Proof.Machine
end

section
namespace Sys2Proof.Proofs
open Sys2Proof.Machine

/-- Settles O13. NOP answers the state it is given, as an idle edge does, so a run of NOPs drops out of any sequence. -/
theorem nopChangesNothing : Obligations.NopChangesNothing := by
  refine ⟨exec_nop, rfl, ?decodes, ?idle, ?anyNumber⟩
  case decodes =>
    intro data
    rw [decode_commandOf, decodeFields_nop]
  case idle =>
    intro op data s
    have hissue : issue .nop s = .next s := by rw [issue_eq_exec, exec_nop]
    exact ⟨hissue, (step_present_idle s op data).trans hissue.symm⟩
  case anyNumber =>
    intro before after n s
    have hnops : afterCommands (List.replicate n .nop ++ after) = afterCommands after := by
      funext t
      rw [afterCommands_append, afterCommands_replicate_nop, andThen_next]
    rw [List.append_assoc, afterCommands_append, hnops, ← afterCommands_append]

/-- Settles O19. Seeding leaves the number of codes modulo 4 in FIDX and no draw changes it; the example is a seed of five
codes. -/
theorem rdidxReadsTheFoldIndex : Obligations.RdidxReadsTheFoldIndex := by
  refine ⟨exec_rdidx, ?zeroExtends, rfl, ?decodes, ?afterDraws, ?abcde⟩
  case zeroExtends =>
    intro s
    have hbelow : (zext32 s.fidx).toNat < 4 := (zext32_toNat s.fidx).trans_lt s.fidx.isLt
    exact ⟨extractLsb'_zext32 s.fidx, hbelow⟩
  case decodes =>
    intro data
    rw [decode_commandOf, decodeFields_rdidx]
  case afterDraws =>
    intro codes n s
    obtain ⟨t, ht, hindex⟩ := afterCommands_seed_draws codes n s
    exact ⟨_, afterCommands_concat_rdidx ht, (zext32_toNat t.fidx).trans hindex⟩
  case abcde =>
    intro s
    refine ⟨_, afterCommands_concat_rdidx (afterCommands_seedCommands _ s), BitVec.eq_of_toNat_eq ?_⟩
    rw [setOut_out, zext32_toNat, seeded_fidx_toNat]
    rfl

/-- Settles O18. RDW writes the word of its index to OUT and nothing else; after a NEXT, W[3] and OUT hold the same word. -/
theorem rdwReadsAStateWord : Obligations.RdwReadsAStateWord := by
  refine ⟨exec_rdw, ?eachIndex, encode_rdw, ?decodes, rfl, ?afterNext, fun s => exec_rdw 1#2 _⟩
  case eachIndex =>
    intro s
    exact ⟨exec_rdw 0#2 s, exec_rdw 1#2 s, exec_rdw 2#2 s, exec_rdw 3#2 s⟩
  case decodes =>
    intro data
    rw [decode_commandOf, decodeFields_rdw]
  case afterNext =>
    intro s
    exact ⟨s.drawn, exec_next s, exec_rdw_three_drawn s⟩

end Sys2Proof.Proofs
end

section
/-! Validation, said once: which error each pair of options gives (decision D24: size first), and that a failing call issues no
command, for whatever error (rule R103). -/

namespace Sys2Proof.Machine

variable {o : Options}

theorem hostError_of_size_nonpos (hsize : o.size ≤ 0) : hostError o = some .invalidDimension := if_pos hsize

theorem hostError_of_scale_nonpos (hsize : 0 < o.size) (hscale : o.scale ≤ 0) : hostError o = some .invalidScale := by
  rw [hostError, if_neg (Int.not_le.mpr hsize), if_pos hscale]

variable {e : HostError} (p : HostParams) (fallback : List Char)

theorem generate_of_hostError (h : hostError o = some e) (s : State) : generate p fallback o s = .error e := by
  rw [generate, h]

theorem generateCommands_of_hostError (h : hostError o = some e) : generateCommands p fallback o = [] := by
  rw [generateCommands, h, Option.isSome_some, if_pos rfl]

end Sys2Proof.Machine

namespace Sys2Proof.Proofs
open Sys2Proof.Machine

/-- Settles O48. Each clause is the error its options give: with an error, `generate` is that error and the command list is
empty. -/
theorem validationBeforeAnyCommand : Obligations.ValidationBeforeAnyCommand := by
  refine ⟨?size, ?scale, ?zeroAndMinusOne⟩
  case size =>
    intro p fb o s hsize
    have herror := hostError_of_size_nonpos hsize
    exact ⟨generate_of_hostError p fb herror s, generateCommands_of_hostError p fb herror⟩
  case scale =>
    intro p fb o s hsize hscale
    have herror := hostError_of_scale_nonpos hsize hscale
    exact ⟨generate_of_hostError p fb herror s, generateCommands_of_hostError p fb herror⟩
  case zeroAndMinusOne =>
    intro p fb o s
    have hzero : hostError { o with size := 0 } = some .invalidDimension := hostError_of_size_nonpos (Int.le_refl 0)
    have hminusOne : hostError { o with size := -1 } = some .invalidDimension :=
      hostError_of_size_nonpos (show (-1 : Int) ≤ 0 by decide)
    exact ⟨generate_of_hostError p fb hzero s, generate_of_hostError p fb hminusOne s⟩

end Sys2Proof.Proofs
end

section
/-! Taking the exception: the reserved opcodes set ERR, and a set ERR travels through every other meaning untouched (rules R54,
R122). -/

namespace Sys2Proof.Machine

theorem exec_rsvd6 (s : State) : exec .rsvd6 s = .next s.setErr := rfl

theorem exec_rsvd7 (s : State) : exec .rsvd7 s = .next s.setErr := rfl

theorem exec_of_reserved {r : Instr} (hr : r = .rsvd6 ∨ r = .rsvd7) (s : State) : exec r s = .next s.setErr := by
  rcases hr with rfl | rfl
  · exact exec_rsvd6 s
  · exact exec_rsvd7 s

theorem setW_setErr (s : State) (i : BitVec 2) (v : Word) : s.setErr.setW i v = (s.setW i v).setErr := by
  rcases index_cases i with rfl | rfl | rfl | rfl <;> rfl

/-- No meaning reads ERR, and none clears it: set before a command or after it, the state is the same. -/
theorem exec_setErr {i : Instr} {s t : State} (h : exec i s = .next t) : exec i s.setErr = .next t.setErr := by
  cases i with
  | fold c =>
    rw [exec_fold, Host.Outcome.next.injEq] at h
    rw [← h, exec_fold, setErr_fidx, getW_setErr, setW_setErr]
    rfl
  | nop => cases h; rfl
  | clear => cases h; rfl
  | next => cases h; rfl
  | rdw k => cases h; rfl
  | rdidx => cases h; rfl
  | rsvd6 => cases h; rfl
  | rsvd7 => cases h; rfl

theorem afterCommands_eq_next (cs : List Instr) (s : State) : ∃ t, afterCommands cs s = .next t := by
  obtain ⟨r, hr, _⟩ := runCommands_eq_next cs s
  exact ⟨r.2, by rw [afterCommands, hr, andThen_next]⟩

end Sys2Proof.Machine
end

section
/-! The rising edges of a run, whatever the pins: each answers a next state and keeps what the host still drives (rule R143). -/

namespace Sys2Proof.Machine

theorem risingEdge_eq_next (p : PortIn) (s : State) : ∃ t, risingEdge p s = .next t := by
  unfold risingEdge
  split
  · exact ⟨_, rfl⟩
  · split
    · exact exec_eq_next _ s
    · exact ⟨_, rfl⟩

/-- What the host drives at later edges is not the block's to change. -/
theorem risingEdge_inputs {p : PortIn} {s t : State} (h : risingEdge p s = .next t) : t.inputs = s.inputs := by
  obtain ⟨_, rfl⟩ | ⟨_, _, hexec⟩ | ⟨_, _, rfl⟩ := risingEdge_cases h
  · exact applyReset_inputs s
  · exact exec_inputs hexec
  · rfl

theorem step_present (p : PortIn) (s : State) : step (s.present p) = risingEdge p s := by
  rw [step, pins_present, consumePins_present]

theorem edges_succ (k : Nat) (s : State) : edges (k + 1) s = andThen (step s) (edges k) := rfl

end Sys2Proof.Machine
end

section
/-! ERR as a function of the edges alone: reset clears it, a reserved command sets it, and any other edge holds it (rules R25,
R120, R122, R123). -/

namespace Sys2Proof.Machine

/-- A command of a reserved op is the reserved command itself. -/
theorem reserved_of_op {i : Instr} (h : i.op = 0b110#3 ∨ i.op = 0b111#3) : i = .rsvd6 ∨ i = .rsvd7 := by
  cases i with
  | rsvd6 => exact .inl rfl
  | rsvd7 => exact .inr rfl
  | nop | clear | fold | next | rdw | rdidx => simp [Instr.op] at h

/-- Everything a command can do to ERR, by its op. -/
theorem exec_err {i : Instr} {s t : State} (h : exec i s = .next t) :
    t.err = if i.op = 0b110#3 ∨ i.op = 0b111#3 then 1#1 else s.err := by
  split
  next hop =>
    rw [exec_of_reserved (reserved_of_op hop), Host.Outcome.next.injEq] at h
    rw [← h, setErr_err]
  next hop =>
    refine exec_err_of_not_reserved h ?_ ?_
    · rintro rfl
      exact hop (.inl rfl)
    · rintro rfl
      exact hop (.inr rfl)

/-- ERR after one more edge, from ERR before it. -/
def errAfter (e : BitVec 1) (p : PortIn) : BitVec 1 := if p.rst then 0#1 else if p.presentsReserved then 1#1 else e

theorem errAfter_of_rst {p : PortIn} (h : p.rst = true) (e : BitVec 1) : errAfter e p = 0#1 := if_pos h

theorem errAfter_of_presentsReserved {p : PortIn} (hrst : p.rst = false) (h : p.presentsReserved = true) (e : BitVec 1) :
    errAfter e p = 1#1 := by
  rw [errAfter, hrst, if_neg Bool.false_ne_true, if_pos h]

theorem errAfter_one {p : PortIn} (hrst : p.rst = false) : errAfter 1#1 p = 1#1 := by
  rw [errAfter, hrst, if_neg Bool.false_ne_true, ite_self]

theorem errAfter_zero {p : PortIn} (h : p.presentsReserved = false) : errAfter 0#1 p = 0#1 := by
  rw [errAfter, h, if_neg Bool.false_ne_true, ite_self]

theorem presentsReserved_iff_op {p : PortIn} (hrst : p.rst = false) (hvalid : p.cmdValid = true) :
    p.presentsReserved = true ↔ p.cmdOp = 0b110#3 ∨ p.cmdOp = 0b111#3 := by
  simp [PortIn.presentsReserved, PortIn.presents, hrst, hvalid]

theorem presentsReserved_of_not_valid {p : PortIn} (hvalid : p.cmdValid = false) : p.presentsReserved = false := by
  simp [PortIn.presentsReserved, PortIn.presents, hvalid]

theorem risingEdge_err {p : PortIn} {s t : State} (h : risingEdge p s = .next t) : t.err = errAfter s.err p := by
  obtain ⟨hrst, rfl⟩ | ⟨hrst, hvalid, hexec⟩ | ⟨hrst, hvalid, rfl⟩ := risingEdge_cases h
  · rw [applyReset_err, errAfter_of_rst hrst]
  · have hop : (decode p.command).op = p.cmdOp := by rw [op_decode, PortIn.command, opField_commandOf]
    rw [exec_err hexec, hop, errAfter, hrst, if_neg Bool.false_ne_true]
    simp only [presentsReserved_iff_op hrst hvalid]
  · rw [errAfter, hrst, presentsReserved_of_not_valid hvalid, if_neg Bool.false_ne_true, if_neg Bool.false_ne_true]

/-- ERR after the planned edges is the fold of the edges over ERR before them. -/
theorem edges_err (ps rest : List PortIn) {s : State} (h : s.inputs = ps ++ rest) :
    ∃ t, edges ps.length s = .next t ∧ t.err = ps.foldl errAfter s.err := by
  induction ps generalizing s with
  | nil => exact ⟨s, rfl, rfl⟩
  | cons p ps ih =>
    obtain ⟨u, hu⟩ := risingEdge_eq_next p { s with inputs := ps ++ rest }
    obtain ⟨t, ht, herr⟩ := ih (risingEdge_inputs hu)
    have hstep : step s = .next u := (step_cons h).trans hu
    refine ⟨t, ?run, ?flag⟩
    case run => rw [List.length_cons, edges_succ, hstep, andThen_next, ht]
    case flag => rw [herr, risingEdge_err hu, List.foldl_cons]

theorem foldl_errAfter_one {ps : List PortIn} (h : ∀ p ∈ ps, p.rst = false) : ps.foldl errAfter 1#1 = 1#1 :=
  List.foldlRecOn (motive := (· = 1#1)) ps errAfter rfl fun e he p hp => by rw [he, errAfter_one (h p hp)]

theorem foldl_errAfter_zero {ps : List PortIn} (h : ∀ p ∈ ps, p.presentsReserved = false) : ps.foldl errAfter 0#1 = 0#1 :=
  List.foldlRecOn (motive := (· = 0#1)) ps errAfter rfl fun e he p hp => by rw [he, errAfter_zero (h p hp)]

/-- The first part of the edges does not matter, the reserved command sets the flag, and the last part cannot clear it. -/
theorem foldl_errAfter_of_presentsReserved {ps : List PortIn} (h : ∀ p ∈ ps, p.rst = false) {p : PortIn} (hp : p ∈ ps)
    (hres : p.presentsReserved = true) (e : BitVec 1) : ps.foldl errAfter e = 1#1 := by
  obtain ⟨before, after, rfl⟩ := List.append_of_mem hp
  have hafter : ∀ q ∈ after, q.rst = false := fun q hq => h q (List.mem_append_right before (List.mem_cons_of_mem p hq))
  rw [List.foldl_append, List.foldl_cons, errAfter_of_presentsReserved (h p hp) hres, foldl_errAfter_one hafter]

end Sys2Proof.Machine
end

section
namespace Sys2Proof.Proofs
open Sys2Proof.Machine

/-- Settles O20. Taking the exception is `setErr`, which no other meaning reads or undoes. -/
theorem illegalCommandSetsErrAndNothingElse : Obligations.IllegalCommandSetsErrAndNothingElse := by
  refine ⟨fun s => ⟨exec_rsvd6 s, exec_rsvd7 s⟩, ?decodes, ?precise, ?blocksNothing⟩
  case decodes =>
    intro data
    rw [decode_commandOf, decode_commandOf]
    exact ⟨decodeFields_rsvd6 data, decodeFields_rsvd7 data⟩
  case precise =>
    intro before r s hr
    obtain ⟨t, ht⟩ := afterCommands_eq_next before s
    refine ⟨t, ht, ?_⟩
    rw [afterCommands_append, ht, andThen_next, afterCommands_cons, exec_of_reserved hr, andThen_next, afterCommands_nil]
    rfl
  case blocksNothing =>
    intro i s
    obtain ⟨t, ht⟩ := exec_eq_next i s
    exact ⟨t, ht, exec_setErr ht⟩

/-- Settles O23. ERR after the edges is the fold of `errAfter`, which a set flag survives without a reset and which a clear flag
survives without a reserved command. -/
theorem errIsStickyUntilReset : Obligations.ErrIsStickyUntilReset := by
  refine ⟨?sticky, ?sets, ?staysClear, ?reset⟩
  case sticky =>
    intro ps s hrst herr
    obtain ⟨t, ht, hflag⟩ := edges_err ps s.inputs (presentAll_inputs s ps)
    refine ⟨t, ht, ?_⟩
    rw [hflag, presentAll_err, herr, foldl_errAfter_one hrst]
  case sets =>
    rintro ps s hrst ⟨p, hp, hres⟩
    obtain ⟨t, ht, hflag⟩ := edges_err ps s.inputs (presentAll_inputs s ps)
    exact ⟨t, ht, hflag.trans (foldl_errAfter_of_presentsReserved hrst hp hres _)⟩
  case staysClear =>
    intro ps s herr hres
    obtain ⟨t, ht, hflag⟩ := edges_err ps s.inputs (presentAll_inputs s ps)
    refine ⟨t, ht, ?_⟩
    rw [hflag, presentAll_err, herr, foldl_errAfter_zero hres]
  case reset =>
    intro p s hrst
    obtain ⟨t, ht⟩ := risingEdge_eq_next p s
    exact ⟨t, (step_present p s).trans ht, (risingEdge_err ht).trans (errAfter_of_rst hrst s.err)⟩

/-- Settles O21. Every command answers a next state, and one that is not reserved leaves ERR there. -/
theorem ownCommandsRaiseNothing : Obligations.OwnCommandsRaiseNothing := by
  intro i s h6 h7
  obtain ⟨t, ht⟩ := exec_eq_next i s
  exact ⟨t, ht, exec_err_of_not_reserved ht h6 h7⟩

/-- Settles O22. The decoded command keeps the op, and the op alone decides what becomes of ERR. -/
theorem onlyReservedOpcodesRaise : Obligations.OnlyReservedOpcodesRaise := by
  refine ⟨?raises, ?code⟩
  case raises =>
    intro op data s herr
    obtain ⟨t, ht⟩ := exec_eq_next (decode (commandOf op data)) s
    have hflag : t.errPort = if op = 0b110#3 ∨ op = 0b111#3 then 1#1 else 0#1 := by
      have h := exec_err ht
      rwa [op_decode, opField_commandOf, herr] at h
    refine ⟨t, ht, ?_⟩
    by_cases hop : op = 0b110#3 ∨ op = 0b111#3
    · rw [if_pos hop] at hflag
      exact iff_of_true hflag hop
    · rw [if_neg hop] at hflag
      exact iff_of_false (by rw [hflag]; decide) hop
  case code =>
    intro e s
    have hcode : e.code = 1#1 := by cases e; rfl
    rw [takeException_eq_setErr, hcode]
    exact ⟨rfl, setErr_err s, rfl⟩

end Sys2Proof.Proofs
end

section
/-! What the host has planned, edge by edge: the first planned edge happens and the rest of the plan stands, a run of reset edges
leaves the reset state, and planned commands are the commands issued (rules R140, R143; log 1). -/

namespace Sys2Proof.Machine

theorem risingEdge_of_rst {p : PortIn} (h : p.rst = true) (s : State) : risingEdge p s = .next s.applyReset := if_pos h

theorem edges_add (m n : Nat) (s : State) : edges (m + n) s = andThen (edges m s) (edges n) := by
  induction m generalizing s with
  | zero => rw [Nat.zero_add]; rfl
  | succ m ih =>
    rw [Nat.succ_add, edges_succ, edges_succ, andThen_assoc]
    exact congrArg (andThen (step s)) (funext ih)

@[simp] theorem edges_one (s : State) : edges 1 s = step s := by
  rw [edges_succ]
  cases step s <;> rfl

@[simp] theorem presentAll_nil (s : State) : s.presentAll [] = s := rfl

theorem presentAll_append (ps qs : List PortIn) (s : State) : s.presentAll (ps ++ qs) = (s.presentAll qs).presentAll ps := by
  simp only [State.presentAll, List.append_assoc]

@[simp] theorem applyReset_applyReset (s : State) : s.applyReset.applyReset = s.applyReset := rfl

/-- Reset leaves the host's plan as it is, so it does not matter which of the two comes first. -/
@[simp] theorem applyReset_presentAll (s : State) (ps : List PortIn) :
    (s.presentAll ps).applyReset = s.applyReset.presentAll ps := rfl

/-- The first of the planned edges happens while the others stay planned. -/
theorem edges_presentAll_cons (p : PortIn) (ps : List PortIn) (s : State) :
    edges (p :: ps).length (s.presentAll (p :: ps)) = andThen (risingEdge p (s.presentAll ps)) (edges ps.length) := by
  have hstep : step (s.presentAll (p :: ps)) = risingEdge p (s.presentAll ps) := step_cons rfl
  rw [List.length_cons, edges_succ, hstep]

theorem edges_presentAll_rst_cons {p : PortIn} (h : p.rst = true) (ps : List PortIn) (s : State) :
    edges (p :: ps).length (s.presentAll (p :: ps)) = edges ps.length (s.applyReset.presentAll ps) := by
  rw [edges_presentAll_cons, risingEdge_of_rst h, andThen_next, applyReset_presentAll]

/-- Holding reset from the reset state changes nothing. -/
theorem edges_presentAll_rst_applyReset {ps : List PortIn} (h : ∀ p ∈ ps, p.rst = true) (s : State) :
    edges ps.length (s.applyReset.presentAll ps) = .next s.applyReset := by
  induction ps with
  | nil => rfl
  | cons p ps ih =>
    obtain ⟨hp, hps⟩ := List.forall_mem_cons.mp h
    rw [edges_presentAll_rst_cons hp, applyReset_applyReset, ih hps]

/-- Any nonempty run of reset edges leaves the reset state, with the later pins as planned (rule R140). -/
theorem edges_presentAll_rst {ps : List PortIn} (hne : ps ≠ []) (h : ∀ p ∈ ps, p.rst = true) (s : State) :
    edges ps.length (s.presentAll ps) = .next s.applyReset := by
  obtain ⟨p, ps, rfl⟩ := List.exists_cons_of_ne_nil hne
  obtain ⟨hp, hps⟩ := List.forall_mem_cons.mp h
  rw [edges_presentAll_rst_cons hp, edges_presentAll_rst_applyReset hps]

/-- A command leaves the host's plan as it is, so the plan may be made before it or after it. -/
theorem exec_presentAll {i : Instr} {s t : State} (h : exec i s = .next t) (ps : List PortIn) :
    exec i (s.presentAll ps) = .next (t.presentAll ps) := by
  rw [State.presentAll, exec_withInputs, h, andThen_next, ← exec_inputs h]
  rfl

/-- Commands planned in advance, one per edge, do what they do when issued one at a time. -/
theorem edges_presentAll_commands (cs : List Instr) (s : State) :
    edges (cs.map fun i => PortIn.ofCommand (encode i)).length (s.presentAll (cs.map fun i => .ofCommand (encode i))) =
      afterCommands cs s := by
  induction cs generalizing s with
  | nil => rfl
  | cons i cs ih =>
    obtain ⟨t, ht⟩ := exec_eq_next i s
    rw [List.map_cons, edges_presentAll_cons, risingEdge_ofCommand, decode_encode, exec_presentAll ht, andThen_next, ih,
      afterCommands_cons, ht, andThen_next]

/-- Only reset clears ERR (rules R25, R140). -/
theorem pins_rst_of_step_clears_err {s t : State} (h : step s = .next t) (hs : s.err = 1#1) (ht : t.err = 0#1) :
    s.pins.rst = true := by
  by_contra hrst
  have hkept : t.err = 1#1 := by
    rw [risingEdge_err h, consumePins_err, hs, errAfter_one (Bool.eq_false_iff.mpr hrst)]
  exact absurd (ht.symm.trans hkept) (by decide)

end Sys2Proof.Machine

namespace Sys2Proof.Proofs
open Sys2Proof.Machine

/-- Settles O3. The step takes the planned pins away and is the rising edge with them, which has one branch for each clause. -/
theorem risingEdgeAppliesTheCommandOrHolds : Obligations.RisingEdgeAppliesTheCommandOrHolds := by
  refine ⟨?applies, ?holds, fun s => ⟨rfl, rfl, rfl⟩⟩
  case applies =>
    intro s rest op data
    rw [step_cons rfl]
    rfl
  case holds =>
    intro s rest op data
    rw [step_cons rfl]
    rfl

/-- Settles O6. A reset edge answers `applyReset` whatever else its pins carry; the command after a run of them meets the state
that run leaves. -/
theorem resetEdgeTakesTheResetState : Obligations.ResetEdgeTakesTheResetState := by
  refine ⟨?oneEdge, fun s ps hne hrst => edges_presentAll_rst hne hrst s, ?thenCommand, ⟨rfl, rfl⟩,
    fun s t => pins_rst_of_step_clears_err⟩
  case oneEdge =>
    intro s rest valid op data
    rw [step_cons rfl, risingEdge_of_rst rfl]
    rfl
  case thenCommand =>
    intro s ps w hne hrst
    have hreset : edges ps.length (s.presentAll (ps ++ [.ofCommand w])) = .next (s.applyReset.present (.ofCommand w)) := by
      rw [presentAll_append, edges_presentAll_rst hne hrst, applyReset_presentAll]
      rfl
    rw [edges_add, hreset, andThen_next, edges_one, step_present_ofCommand]
    rfl

end Sys2Proof.Proofs
end

section
/-! The host's procedures beside the commands they are listed as: each answers a result, in the state its commands leave (rules
R105 to R107). -/

namespace Sys2Proof.Machine

theorem afterCommands_append_of_next {cs ds : List Instr} {s t u : State} (hcs : afterCommands cs s = .next t)
    (hds : afterCommands ds t = .next u) : afterCommands (cs ++ ds) s = .next u := by
  rw [afterCommands_append, hcs, andThen_next, hds]

theorem drawCommands_add (m n : Nat) : drawCommands (m + n) = drawCommands m ++ drawCommands n := List.replicate_add ..

theorem drawMany_issues (n : Nat) (s : State) :
    ∃ r, drawMany n s = .next r ∧ afterCommands (drawCommands n) s = .next r.2 := by
  rw [drawMany_eq, afterCommands_drawCommands]
  exact ⟨_, rfl, rfl⟩

theorem resolveSlot_issues (override : Option (List Char)) (s : State) :
    ∃ r, resolveSlot override s = .next r ∧ afterCommands (slotCommands override) s = .next r.2 := by
  cases override with
  | some text => exact ⟨_, rfl, afterCommands_nil s⟩
  | none =>
    obtain ⟨d, hd, hstate⟩ := drawMany_issues 6 s
    exact ⟨(.drawn (colorOfDraws d.1), d.2), by rw [resolveSlot, hd, andThen_next], hstate⟩

theorem resolvePalette_issues (o : Options) (s : State) :
    ∃ r, resolvePalette o s = .next r ∧
      afterCommands (slotCommands o.color ++ slotCommands o.bgColor ++ slotCommands o.spotColor) s = .next r.2 := by
  obtain ⟨f, hf, hfore⟩ := resolveSlot_issues o.color s
  obtain ⟨b, hb, hback⟩ := resolveSlot_issues o.bgColor f.2
  obtain ⟨q, hq, hspot⟩ := resolveSlot_issues o.spotColor b.2
  refine ⟨(⟨f.1, b.1, q.1⟩, q.2), ?answers, ?issues⟩
  case answers => rw [resolvePalette, hf, andThen_next, hb, andThen_next, hq, andThen_next]
  case issues => exact afterCommands_append_of_next (afterCommands_append_of_next hfore hback) hspot

theorem gridRows_issues (size rows : Nat) (s : State) :
    ∃ r, gridRows size rows s = .next r ∧ afterCommands (drawCommands (rows * dataWidth size)) s = .next r.2 := by
  induction rows generalizing s with
  | zero => exact ⟨_, rfl, by rw [Nat.zero_mul]; exact afterCommands_nil s⟩
  | succ rows ih =>
    obtain ⟨d, hd, hrow⟩ := drawMany_issues (dataWidth size) s
    obtain ⟨g, hg, hrows⟩ := ih d.2
    refine ⟨(gridRow size d.1 ++ g.1, g.2), ?answers, ?issues⟩
    case answers => rw [gridRows, hd, andThen_next, hg, andThen_next]
    case issues =>
      rw [Nat.succ_mul, Nat.add_comm, drawCommands_add]
      exact afterCommands_append_of_next hrow hrows

/-! The run as a whole, on options that pass validation -/

section
variable {o : Options}

theorem hostError_of_pos (hsize : 0 < o.size) (hscale : 0 < o.scale) : hostError o = none := by
  rw [hostError, if_neg (Int.not_le.mpr hsize), if_neg (Int.not_le.mpr hscale)]

variable (p : HostParams) (fallback : List Char)

theorem generateCommands_of_valid (h : hostError o = none) :
    generateCommands p fallback o =
      seedCommands (charCodes p.charUnit (resolveSeed p fallback o.seed)) ++ slotCommands o.color ++ slotCommands o.bgColor
        ++ slotCommands o.spotColor ++ drawCommands (o.size.toNat * dataWidth o.size.toNat) := by
  rw [generateCommands, h, Option.isSome_none, if_neg Bool.false_ne_true]

/-- The run answers what its three parts answer one after the other. -/
theorem generate_of_parts (h : hostError o = none) {s a b t : State} {palette : Palette} {grid : List Int}
    (hseed : afterCommands (seedCommands (charCodes p.charUnit (resolveSeed p fallback o.seed))) s = .next a)
    (hpalette : resolvePalette o a = .next (palette, b))
    (hgrid : gridRows o.size.toNat o.size.toNat b = .next (grid, t)) :
    generate p fallback o s = .ok (.next (⟨grid, palette, o.size * o.scale⟩, t)) := by
  obtain ⟨r, hr, rfl⟩ := runCommands_of_afterCommands hseed
  rw [generate, h]
  simp only [hr, hpalette, hgrid, andThen_next]

end

/-! The listed commands, counted -/

/-- The NEXTs of one palette slot (rule R107). -/
theorem slotCommands_eq_drawCommands (override : Option (List Char)) :
    slotCommands override = drawCommands (if override = none then 6 else 0) := by
  cases override <;> rfl

theorem slotDraws_eq_unsetSlots (o : Options) :
    (if o.color = none then 6 else 0) + (if o.bgColor = none then 6 else 0) + (if o.spotColor = none then 6 else 0) =
      6 * unsetSlots o := by
  simp only [unsetSlots, Option.isNone_iff_eq_none, Nat.mul_add, mul_ite, Nat.mul_one, Nat.mul_zero]

/-- A run is a seed and draws: six for each unset slot and one for each pixel of the grid's left part. -/
theorem generateCommands_eq_seed_draws {o : Options} (h : hostError o = none) (p : HostParams) (fallback : List Char) :
    generateCommands p fallback o =
      seedCommands (charCodes p.charUnit (resolveSeed p fallback o.seed)) ++
        drawCommands (6 * unsetSlots o + o.size.toNat * dataWidth o.size.toNat) := by
  rw [generateCommands_of_valid p fallback h, ← slotDraws_eq_unsetSlots]
  simp only [slotCommands_eq_drawCommands, drawCommands_add, List.append_assoc]

section
variable (codes : List Word) (n : Nat)

theorem count_clear_seed_draws : (seedCommands codes ++ drawCommands n).count .clear = 1 := by
  have hfolds : (codes.map Instr.fold).count .clear = 0 := List.count_eq_zero.mpr (by simp)
  rw [seedCommands, drawCommands, List.count_append, List.count_cons_self, hfolds, List.count_replicate]
  rfl

theorem count_next_seed_draws : (seedCommands codes ++ drawCommands n).count .next = n := by
  have hseed : (seedCommands codes).count .next = 0 := List.count_eq_zero.mpr (by simp [seedCommands])
  rw [List.count_append, hseed, drawCommands, List.count_replicate_self, Nat.zero_add]

theorem countP_fold_seed_draws :
    (seedCommands codes ++ drawCommands n).countP (fun i => i.mnemonic == "FOLD") = codes.length := by
  have hdraws : (drawCommands n).countP (fun i => i.mnemonic == "FOLD") = 0 := by
    rw [drawCommands, List.countP_replicate]
    rfl
  have hfolds : (codes.map Instr.fold).countP (fun i => i.mnemonic == "FOLD") = codes.length := by
    rw [List.countP_map]
    exact List.countP_eq_length.mpr fun c _ => rfl
  rw [List.countP_append, hdraws, seedCommands, List.countP_cons, hfolds]
  rfl

end

/-- A first run after power-up: the reset edge, then the commands, each at its edge (rules R140, R142). -/
theorem edges_bootAndGenerateCycles (p : HostParams) (fallback : List Char) (o : Options) (s : State) :
    edges (bootAndGenerateCycles p fallback o).length (s.presentAll (bootAndGenerateCycles p fallback o)) =
      afterCommands (generateCommands p fallback o) s.applyReset := by
  rw [bootAndGenerateCycles, edges_presentAll_rst_cons rfl, edges_presentAll_commands]

end Sys2Proof.Machine

namespace Sys2Proof.Proofs
open Sys2Proof.Machine

/-- Settles O52. Seed, palette and grid each answer in the state their listed commands leave, so the run does; the counts are
those of a seed followed by draws. -/
theorem generateIssuesTheListedCommands : Obligations.GenerateIssuesTheListedCommands := by
  refine ⟨?wholeRun, ?listed, ?boot, rfl, rfl⟩
  case wholeRun =>
    intro p fb o s hsize hscale
    have hvalid := hostError_of_pos hsize hscale
    obtain ⟨a, hseed⟩ := afterCommands_eq_next (seedCommands (charCodes p.charUnit (resolveSeed p fb o.seed))) s
    obtain ⟨⟨palette, b⟩, hpalette, hslots⟩ := resolvePalette_issues o a
    obtain ⟨⟨grid, t⟩, hgrid, hpixels⟩ := gridRows_issues o.size.toNat o.size.toNat b
    refine ⟨⟨grid, palette, o.size * o.scale⟩, t, a, b, generate_of_parts p fb hvalid hseed hpalette hgrid, rfl, ?issued,
      hseed, hpalette, hgrid⟩
    have hlisted := afterCommands_append_of_next (afterCommands_append_of_next hseed hslots) hpixels
    simpa only [generateCommands_of_valid p fb hvalid, List.append_assoc] using hlisted
  case listed =>
    intro p fb o hsize hscale codes
    have hvalid := hostError_of_pos hsize hscale
    refine ⟨?order, ?clears, ?folds, ?nexts⟩
    case order =>
      rw [generateCommands_of_valid p fb hvalid]
      simp only [slotCommands_eq_drawCommands]
      rfl
    all_goals rw [generateCommands_eq_seed_draws hvalid p fb]
    case clears => exact count_clear_seed_draws codes _
    case folds => exact countP_fold_seed_draws codes _
    case nexts => exact count_next_seed_draws codes _
  case boot =>
    intro p fb o s
    obtain ⟨t, ht⟩ := afterCommands_eq_next (generateCommands p fb o) s.applyReset
    exact ⟨t, (edges_bootAndGenerateCycles p fb o s).trans ht, ht, rfl⟩

end Sys2Proof.Proofs
end

section
/-! The encoder writes the canonical word of what a word decodes to, so decoding forgets the ignored bits and nothing else
(rules R50, R52, R53). -/

namespace Sys2Proof

/-- The two data bits RDW reads, zero-extended, are the data field under RDW's mask. -/
theorem zext32_extractLsb' (data : Word) : Machine.zext32 (data.extractLsb' 0 2) = data &&& 0x00000003#32 := by
  apply BitVec.eq_of_toNat_eq
  rw [Machine.zext32_toNat, BitVec.extractLsb'_toNat, Nat.shiftRight_zero, BitVec.toNat_and]
  exact (Nat.and_two_pow_sub_one_eq_mod data.toNat 2).symm

/-- The canonical data of a decoded command is the data field under the mask of its op (rule R52). -/
theorem data_decodeFields (op : BitVec 3) (data : Word) : (decodeFields op data).data = data &&& readMask op := by
  rcases op_cases op with h | h | h | h | h | h | h | h <;> subst h
  case inr.inr.inl => exact BitVec.and_allOnes.symm
  case inr.inr.inr.inr.inl => exact zext32_extractLsb' data
  all_goals exact BitVec.and_zero.symm

theorem encode_decode (w : Command) : encode (decode w) = canonical w := by
  rw [encode, canonical, op_decode, decode, data_decodeFields]

theorem decode_canonical (w : Command) : decode (canonical w) = decode w := by rw [← encode_decode, Machine.decode_encode]

theorem decode_eq_iff_canonical_eq (w w' : Command) : decode w = decode w' ↔ canonical w = canonical w' := by
  constructor
  · intro h
    rw [← encode_decode, h, encode_decode]
  · intro h
    rw [← decode_canonical, h, decode_canonical]

theorem decodeNat_toNat (w : Command) : decodeNat w.toNat = .ok (decode w) := by
  rw [decodeNat, if_pos w.isLt, BitVec.ofNat_toNat, BitVec.setWidth_eq]

theorem decodeNat_of_ge {w : Nat} (h : 2 ^ 35 ≤ w) : decodeNat w = .error .widerThanCommand := if_neg (Nat.not_lt.mpr h)

/-- The opcode table's 40 bits hold every command word whole (log 5). -/
theorem decodeTableWord_toNat (w : Command) : decodeTableWord 40 w.toNat = some (decode w) := by
  rw [decodeTableWord, Nat.mod_eq_of_lt (w.isLt.trans (by decide)), decodeNat_toNat]
  rfl

end Sys2Proof

namespace Sys2Proof.Proofs
open Sys2Proof.Machine

/-- Settles O9. Encoding what a word decodes to makes the word canonical, and decoding undoes encoding; the rest follows. -/
theorem decodeAndEncodeAgree : Obligations.DecodeAndEncodeAgree := by
  refine ⟨fun i _ => decode_encode i, encode_decode, decode_eq_iff_canonical_eq, ?tableWord, fun w => decodeNat_of_ge⟩
  case tableWord =>
    intro i
    rw [decodeTableWord_toNat, decode_encode]

end Sys2Proof.Proofs
end

section
/-! What an edge's pins present, against the command it applies, and the shape of an invariant of states and of coming edges: one
that every step keeps where a reset edge meets it and every allowed command keeps it (rules R54, R83, R84, R143). -/

namespace Sys2Proof.Machine

variable {p : PortIn} {s t : State}

theorem decode_command (p : PortIn) : decode p.command = decodeFields p.cmdOp p.cmdData := decode_commandOf p.cmdOp p.cmdData

@[simp] theorem op_decode_command (p : PortIn) : (decode p.command).op = p.cmdOp := by rw [decode_command, op_decodeFields]

theorem presents_eq_op (hrst : p.rst = false) (hvalid : p.cmdValid = true) (op : BitVec 3) :
    p.presents op = ((decode p.command).op == op) := by
  rw [PortIn.presents, hrst, hvalid, op_decode_command, Bool.not_false, Bool.true_and, Bool.true_and]

theorem presents_of_not_valid (hvalid : p.cmdValid = false) (op : BitVec 3) : p.presents op = false := by
  rw [PortIn.presents, hvalid, Bool.and_false, Bool.false_and]

/-- A FOLD folds the data field it is presented with. -/
theorem cmdData_of_decode_eq_fold {c : Word} (h : decode p.command = .fold c) : p.cmdData = c := by
  have hop : p.cmdOp = 0b010#3 := (op_decode_command p).symm.trans (congrArg Instr.op h)
  rw [decode_command, hop, decodeFields_fold] at h
  exact Instr.fold.inj h

theorem presentsFold_of_decode_eq_fold (hrst : p.rst = false) (hvalid : p.cmdValid = true) {c : Word}
    (h : decode p.command = .fold c) : p.presentsFold = true := by
  rw [PortIn.presentsFold, presents_eq_op hrst hvalid, h]
  rfl

theorem step_inputs (h : step s = .next t) : t.inputs = s.inputs.tail := risingEdge_inputs h

/-- What holds of an idle edge and of every planned one holds of the pins of the next edge. -/
theorem pins_of_forall_inputs {Q : PortIn → Prop} (hidle : Q .idle) (h : ∀ p ∈ s.inputs, Q p) : Q s.pins := by
  rw [State.pins]
  cases hs : s.inputs with
  | nil => exact hidle
  | cons p rest => exact h p (by rw [hs]; exact List.mem_cons_self)

/-- An invariant of the block's state, under edges that never present what `bad` names: a reset edge meets it, and every command
presented otherwise keeps it. It does not speak of the coming edges themselves. -/
structure KeptUnless (bad : PortIn → Bool) (P : State → Prop) : Prop where
  idle : bad .idle = false
  consumePins : ∀ s : State, P s → P s.consumePins
  applyReset : ∀ s : State, P s.applyReset
  exec : ∀ (p : PortIn) (i : Instr) (s t : State), p.rst = false → p.cmdValid = true → bad p = false →
    decode p.command = i → exec i s = .next t → P s → P t

/-- Such an invariant is kept by every step, together with the plan's freedom from what `bad` names. -/
theorem KeptUnless.step {bad : PortIn → Bool} {P : State → Prop} (hP : KeptUnless bad P) (hs : P s)
    (hinputs : ∀ p ∈ s.inputs, bad p = false) (h : step s = .next t) : P t ∧ ∀ p ∈ t.inputs, bad p = false := by
  refine ⟨?block, ?plan⟩
  case block =>
    have hpins : bad s.pins = false := pins_of_forall_inputs hP.idle hinputs
    obtain ⟨_, rfl⟩ | ⟨hrst, hvalid, hexec⟩ | ⟨_, _, rfl⟩ := risingEdge_cases h
    · exact hP.applyReset _
    · exact hP.exec _ _ _ _ hrst hvalid hpins rfl hexec (hP.consumePins s hs)
    · exact hP.consumePins s hs
  case plan =>
    intro p hp
    rw [step_inputs h] at hp
    exact hinputs p (List.mem_of_mem_tail hp)

/-! ERR = 0 (rule R123) -/

theorem err_zero_kept : KeptUnless PortIn.presentsReserved fun s => s.err = 0#1 where
  idle := rfl
  consumePins _ h := h
  applyReset := applyReset_err
  exec p i s t hrst hvalid hbad hi h hs := by
    have hedge : risingEdge p s = .next t := by rw [risingEdge, hrst, hvalid, hi]; exact h
    rw [risingEdge_err hedge, hs, errAfter_zero hbad]

/-! The sign bits 0 (rule R83) -/

/-- Every word and OUT has bit 31 = 0. -/
def State.SignFree (s : State) : Prop := (∀ j, (s.getW j).msb = false) ∧ s.out.msb = false

theorem drawing_iff (s : State) : Drawing s ↔ s.SignFree ∧ ∀ p ∈ s.inputs, p.presentsFold = false := by
  constructor
  · rintro ⟨h0, h1, h2, h3, hout, hplan⟩
    refine ⟨⟨fun j => ?_, hout⟩, hplan⟩
    rcases index_cases j with rfl | rfl | rfl | rfl <;> assumption
  · rintro ⟨⟨hw, hout⟩, hplan⟩
    exact ⟨hw 0#2, hw 1#2, hw 2#2, hw 3#2, hout, hplan⟩

theorem signFree_cleared (h : s.out.msb = false) : (s.clearWords.setFidx 0#2).SignFree := by
  refine ⟨fun j => ?_, h⟩
  rw [getW_setFidx, getW_clearWords]
  rfl

/-- A NEXT moves three words and makes a fourth with bit 31 = 0. -/
theorem signFree_drawn (h : s.SignFree) : s.drawn.SignFree := by
  refine ⟨fun j => ?_, xorshiftN_msb s.w0 s.w3⟩
  rcases index_cases j with rfl | rfl | rfl | rfl
  · exact h.1 1#2
  · exact h.1 2#2
  · exact h.1 3#2
  · exact xorshiftN_msb s.w0 s.w3

theorem zext32_msb (k : BitVec 2) : (zext32 k).msb = false := by
  revert k; decide

theorem signFree_kept : KeptUnless PortIn.presentsFold State.SignFree where
  idle := rfl
  consumePins _ h := h
  applyReset s := signFree_cleared (s := s.applyReset) (by rw [applyReset_out]; rfl)
  exec p i s t hrst hvalid hbad hi h hs := by
    cases i with
    | fold c => exact absurd (presentsFold_of_decode_eq_fold hrst hvalid hi) (Bool.eq_false_iff.mp hbad)
    | nop => cases h; exact hs
    | clear => cases h; exact signFree_cleared hs.2
    | next => cases h; exact signFree_drawn hs
    | rdw k => cases h; exact ⟨hs.1, hs.1 k⟩
    | rdidx => cases h; exact ⟨hs.1, zext32_msb s.fidx⟩
    | rsvd6 => cases h; exact hs
    | rsvd7 => cases h; exact hs

/-! The words 0 (rule R84) -/

/-- The words are 0 and OUT holds at most a fold index. -/
def State.ZeroPhase (s : State) : Prop := s.ZeroWords ∧ s.out.toNat < 4

theorem zeroSeeded_iff (s : State) : ZeroSeeded s ↔ s.ZeroPhase ∧ ∀ p ∈ s.inputs, p.presentsNonzeroFold = false := by
  simp only [ZeroSeeded, State.ZeroPhase, zeroWords_iff, and_assoc]

theorem zeroPhase_setOut (h : s.ZeroPhase) {v : Word} (hv : v.toNat < 4) : (s.setOut v).ZeroPhase :=
  ⟨zeroWords_setOut h.1 v, hv⟩

theorem zeroPhase_kept : KeptUnless PortIn.presentsNonzeroFold State.ZeroPhase where
  idle := rfl
  consumePins _ h := h
  applyReset s := ⟨zeroWords_cleared s.applyReset, by rw [applyReset_out]; decide⟩
  exec p i s t hrst hvalid hbad hi h hs := by
    cases i with
    | fold c =>
      have hc : c = 0#32 := by
        rw [← cmdData_of_decode_eq_fold hi]
        simpa [PortIn.presentsNonzeroFold, presentsFold_of_decode_eq_fold hrst hvalid hi] using hbad
      rw [hc, exec_fold_eq_folded] at h
      cases h
      exact ⟨zeroWords_folded hs.1, by rw [folded_out]; exact hs.2⟩
    | nop => cases h; exact hs
    | clear => cases h; exact ⟨zeroWords_cleared s, hs.2⟩
    | next =>
      rw [exec_next, drawn_of_zeroWords hs.1] at h
      cases h
      exact zeroPhase_setOut hs (by decide)
    | rdw k =>
      rw [exec_rdw, hs.1 k] at h
      cases h
      exact zeroPhase_setOut hs (by decide)
    | rdidx =>
      rw [exec_rdidx] at h
      cases h
      exact zeroPhase_setOut hs (by rw [zext32_toNat]; exact s.fidx.isLt)
    | rsvd6 => cases h; exact hs
    | rsvd7 => cases h; exact hs

end Sys2Proof.Machine

namespace Sys2Proof.Proofs
open Sys2Proof.Machine

/-- Settles O38. Only a FOLD can set a sign bit: NEXT's word has none, and readback copies a word or an index. -/
theorem stepKeepsDrawing : Obligations.StepKeepsDrawing := by
  intro s t hs h
  obtain ⟨hsigns, hplan⟩ := (drawing_iff s).mp hs
  exact (drawing_iff t).mpr (signFree_kept.step hsigns hplan h)

/-- Settles O39. ERR after an edge is `errAfter` of ERR before it, which no edge but a reserved command's turns to 1. -/
theorem stepKeepsClean : Obligations.StepKeepsClean := by
  rintro s t ⟨herr, hplan⟩ h
  exact err_zero_kept.step herr hplan h

/-- Settles O40. From zero words NEXT draws 0, FOLD 0 folds 0, and readback gives 0 or the index. -/
theorem stepKeepsZeroSeeded : Obligations.StepKeepsZeroSeeded := by
  intro s t hs h
  obtain ⟨hzero, hplan⟩ := (zeroSeeded_iff s).mp hs
  exact (zeroSeeded_iff t).mpr (zeroPhase_kept.step hzero hplan h)

/-- Settles O41. The reset state is the state after a reset edge, which meets each invariant. -/
theorem invariantsHoldAtReset : Obligations.InvariantsHoldAtReset := by
  have hdrawing (ps : List PortIn) (h : ∀ p ∈ ps, p.presentsFold = false) : Drawing (State.reset.presentAll ps) :=
    (drawing_iff _).mpr ⟨signFree_kept.applyReset (State.reset.presentAll ps), by simpa [State.reset] using h⟩
  have hclean (ps : List PortIn) (h : ∀ p ∈ ps, p.presentsReserved = false) : Clean (State.reset.presentAll ps) :=
    ⟨rfl, by simpa [State.reset] using h⟩
  have hzero (ps : List PortIn) (h : ∀ p ∈ ps, p.presentsNonzeroFold = false) : ZeroSeeded (State.reset.presentAll ps) :=
    (zeroSeeded_iff _).mpr ⟨zeroPhase_kept.applyReset (State.reset.presentAll ps), by simpa [State.reset] using h⟩
  exact ⟨hdrawing, hclean, hzero, hdrawing [] nofun, hclean [] nofun, hzero [] nofun⟩

end Sys2Proof.Proofs
end

section
/-! The clauses about one edge: an issued command, a presented word, an edge with nothing planned (rules R51, R55, R143). -/

namespace Sys2Proof.Machine

theorem decodeTableWord_eq_some {w : Nat} {i : Instr} (h : decodeTableWord 40 w = some i) :
    decode (BitVec.ofNat 35 (w % 2 ^ 40)) = i := by
  rw [decodeTableWord, decodeNat] at h
  split at h
  · exact Option.some.inj h
  · cases h

/-- A step, and any number of edges, answers a next state. -/
theorem step_eq_next (s : State) : ∃ t, step s = .next t := risingEdge_eq_next s.pins s.consumePins

theorem edges_eq_next (k : Nat) (s : State) : ∃ t, edges k s = .next t := by
  induction k generalizing s with
  | zero => exact ⟨s, rfl⟩
  | succ k ih =>
    obtain ⟨u, hu⟩ := step_eq_next s
    obtain ⟨t, ht⟩ := ih u
    exact ⟨t, by rw [edges_succ, hu, andThen_next, ht]⟩

end Sys2Proof.Machine

namespace Sys2Proof.Proofs
open Sys2Proof.Machine

/-- Settles O2. The canonical word decodes to its command, and a presented word runs as what it decodes to. -/
theorem issuedCommandRuns : Obligations.IssuedCommandRuns := ⟨issue_eq_exec, step_present_ofCommand⟩

/-- Settles O24. Every meaning answers a next state, so every edge does, and any number of edges. -/
theorem nothingStopsTheBlock : Obligations.NothingStopsTheBlock := ⟨exec_eq_next, step_eq_next, edges_eq_next⟩

/-- Settles O1. The head of the plan is consumed and its word runs; `withFetchWord` plans the low 35 bits of its number, which
are those that `decodeTableWord` decodes. -/
theorem stepRunsThePresentedCommand : Obligations.StepRunsThePresentedCommand := by
  refine ⟨?planned, ?tableWord⟩
  case planned =>
    rintro s rest op data i rfl _
    rw [step_cons rfl]
    rfl
  case tableWord =>
    intro s w i h
    rw [State.withFetchWord, State.presentTableWord, step_present_ofCommand, decodeTableWord_eq_some h]

/-- Settles O5. Where nothing is planned the pins are idle. -/
theorem nothingPlannedIsIdle : Obligations.NothingPlannedIsIdle := fun _ => step_nil

/-- Settles O11. Each word is evaluated; a check of the decoder against the spec's own words. -/
theorem sampleWordsDecode : Obligations.SampleWordsDecode := by
  unfold Obligations.SampleWordsDecode
  decide

/-- Settles O28. It is the run of planned commands, with one edge for each of them. -/
theorem presentingInAdvanceEqualsIssuing : Obligations.PresentingInAdvanceEqualsIssuing := by
  intro cs s
  simpa only [List.length_map] using edges_presentAll_commands cs s

end Sys2Proof.Proofs
end

section
/-! What each command writes and reads: the words, FIDX, OUT and ERR (rules R21, R23 to R26). -/

namespace Sys2Proof.Machine

variable {i : Instr} {s t : State}

/-- A command's name tells it from the commands of another name. -/
theorem ne_of_mnemonic_ne {j : Instr} {name : String} (hj : j.mnemonic = name) (h : i.mnemonic ≠ name) : i ≠ j :=
  fun hij => h ((congrArg Instr.mnemonic hij).trans hj)

/-- The commands that write the words (rule R21). -/
theorem exec_words_of_not_seed_or_draw (h : exec i s = .next t) (hclear : i ≠ .clear) (hfold : ∀ c, i ≠ .fold c)
    (hnext : i ≠ .next) : t.w0 = s.w0 ∧ t.w1 = s.w1 ∧ t.w2 = s.w2 ∧ t.w3 = s.w3 := by
  cases i with
  | clear => exact absurd rfl hclear
  | fold c => exact absurd rfl (hfold c)
  | next => exact absurd rfl hnext
  | nop | rdw | rdidx | rsvd6 | rsvd7 => cases h; exact ⟨rfl, rfl, rfl, rfl⟩

/-- Everything a command can do to FIDX, by its op (rule R23). -/
theorem exec_fidx (h : exec i s = .next t) :
    t.fidx = if i.op = 0b001#3 then 0#2 else if i.op = 0b010#3 then s.fidx + 1#2 else s.fidx := by
  cases i with
  | nop | clear | fold | next | rdw | rdidx | rsvd6 | rsvd7 => cases h; rfl

theorem exec_fidx_of_not_seed (h : exec i s = .next t) (hclear : i ≠ .clear) (hfold : ∀ c, i ≠ .fold c) :
    t.fidx = s.fidx := by
  rw [exec_fidx h]
  cases i with
  | clear => exact absurd rfl hclear
  | fold c => exact absurd rfl (hfold c)
  | nop | next | rdw | rdidx | rsvd6 | rsvd7 => rfl

theorem setW_withOutErr (s : State) (j : BitVec 2) (v o : Word) (e : BitVec 1) :
    { s with out := o, err := e }.setW j v = { s.setW j v with out := o, err := e } := by
  rcases index_cases j with rfl | rfl | rfl | rfl <;> rfl

theorem getW_withOutErr (s : State) (j : BitVec 2) (o : Word) (e : BitVec 1) :
    { s with out := o, err := e }.getW j = s.getW j := rfl

/-- Other values of OUT and ERR change neither what a FOLD folds nor where. -/
theorem folded_withOutErr (s : State) (c o : Word) (e : BitVec 1) :
    { s with out := o, err := e }.folded c = { s.folded c with out := o, err := e } := by
  rw [State.folded, setW_withOutErr, getW_withOutErr]
  rfl

/-- A run from other values of OUT and ERR ends in the same state up to them, and each of the two is either written alike or
left as it was in both runs (rules R24, R25, R26). -/
theorem exec_withOutErr (h : exec i s = .next t) (o : Word) (e : BitVec 1) :
    ∃ o' e', exec i { s with out := o, err := e } = .next { t with out := o', err := e' } ∧
      (o' = t.out ∨ t.out = s.out ∧ o' = o) ∧ (e' = t.err ∨ t.err = s.err ∧ e' = e) := by
  cases i with
  | fold c =>
    rw [exec_fold_eq_folded] at h
    cases h
    exact ⟨o, e, by rw [exec_fold_eq_folded, folded_withOutErr], .inr ⟨folded_out s c, rfl⟩, .inr ⟨folded_err s c, rfl⟩⟩
  | nop | clear => cases h; exact ⟨o, e, rfl, .inr ⟨rfl, rfl⟩, .inr ⟨rfl, rfl⟩⟩
  | next | rdw | rdidx => cases h; exact ⟨_, e, rfl, .inl rfl, .inr ⟨rfl, rfl⟩⟩
  | rsvd6 | rsvd7 => cases h; exact ⟨o, 1#1, rfl, .inr ⟨rfl, rfl⟩, .inl rfl⟩

end Sys2Proof.Machine

namespace Sys2Proof.Proofs
open Sys2Proof.Machine

/-- Settles O25. Each field has its lemma about the commands that leave it alone; a command's name tells it from those that
write. -/
theorem onlyTheNamedCommandsWriteEachRegister : Obligations.OnlyTheNamedCommandsWriteEachRegister := by
  intro i s
  obtain ⟨t, ht⟩ := exec_eq_next i s
  refine ⟨t, ht, exec_inputs ht, ?words, ?fidx, ?out, ?err⟩
  case words =>
    intro hclear hfold hnext
    exact exec_words_of_not_seed_or_draw ht (ne_of_mnemonic_ne rfl hclear) (fun c => ne_of_mnemonic_ne rfl hfold)
      (ne_of_mnemonic_ne rfl hnext)
  case fidx =>
    intro hclear hfold
    exact exec_fidx_of_not_seed ht (ne_of_mnemonic_ne rfl hclear) fun c => ne_of_mnemonic_ne rfl hfold
  case out =>
    intro hnext hrdw hrdidx
    exact exec_out_of_not_draw_or_readback ht (ne_of_mnemonic_ne rfl hnext) (ne_of_mnemonic_ne rfl hrdidx)
      fun k => ne_of_mnemonic_ne rfl hrdw
  case err =>
    intro h6 h7
    exact exec_err_of_not_reserved ht (ne_of_mnemonic_ne rfl h6) (ne_of_mnemonic_ne rfl h7)

/-- Settles O26. The two runs differ in nothing but OUT and ERR. -/
theorem noCommandReadsOutOrErr : Obligations.NoCommandReadsOutOrErr := by
  intro i s o e
  obtain ⟨t, ht⟩ := exec_eq_next i s
  obtain ⟨o', e', ht', hout, herr⟩ := exec_withOutErr ht o e
  exact ⟨t, _, ht, ht', rfl, rfl, rfl, rfl, rfl, rfl, hout, herr⟩

end Sys2Proof.Proofs
end

section
/-! FIDX over the edges of a run: an induction over the planned edges, packaged once, and FIDX as the count it holds modulo 4
(rule R23). -/

namespace Sys2Proof.Machine

/-- What a step carries from a state and a value to the next state and `f` of the value, the planned edges carry to the fold of `f`
over them. -/
theorem edges_foldl {β : Type} {R : State → β → Prop} {f : β → PortIn → β}
    (hstep : ∀ {s t : State} {b : β}, step s = .next t → R s b → R t (f b s.pins)) (ps rest : List PortIn) {s : State} {b : β}
    (hs : s.inputs = ps ++ rest) (h : R s b) : ∃ t, edges ps.length s = .next t ∧ R t (ps.foldl f b) := by
  induction ps generalizing s b with
  | nil => exact ⟨s, rfl, h⟩
  | cons p ps ih =>
    obtain ⟨u, hu⟩ := step_eq_next s
    have hpins : s.pins = p := by rw [State.pins, hs]; rfl
    have hplan : u.inputs = ps ++ rest := by rw [step_inputs hu, hs]; rfl
    obtain ⟨t, ht, hR⟩ := ih hplan (hstep hu h)
    rw [hpins] at hR
    exact ⟨t, by rw [List.length_cons, edges_succ, hu, andThen_next, ht], hR⟩

theorem foldsAfter_of_rst {p : PortIn} (h : p.rst = true) (n : Nat) : foldsAfter n p = 0 := if_pos h

theorem foldsAfter_of_not_valid {p : PortIn} (hrst : p.rst = false) (hvalid : p.cmdValid = false) (n : Nat) :
    foldsAfter n p = n := by
  simp [foldsAfter, PortIn.presentsFold, presents_of_not_valid hvalid, hrst]

theorem foldsAfter_of_valid {p : PortIn} (hrst : p.rst = false) (hvalid : p.cmdValid = true) (n : Nat) :
    foldsAfter n p =
      if (decode p.command).op = 0b001#3 then 0 else if (decode p.command).op = 0b010#3 then n + 1 else n := by
  simp [foldsAfter, PortIn.presentsFold, presents_eq_op hrst hvalid, hrst]

theorem step_fidx {s t : State} {n : Nat} (h : step s = .next t) (hn : s.fidx.toNat = n % 4) :
    t.fidx.toNat = foldsAfter n s.pins % 4 := by
  obtain ⟨hrst, rfl⟩ | ⟨hrst, hvalid, hexec⟩ | ⟨hrst, hvalid, rfl⟩ := risingEdge_cases h
  · rw [foldsAfter_of_rst hrst, applyReset_fidx]
    rfl
  · have hfold : (s.fidx + 1#2).toNat = (n + 1) % 4 := by
      rw [BitVec.toNat_add, hn]
      exact Nat.mod_add_mod n 4 1
    rw [foldsAfter_of_valid hrst hvalid, exec_fidx hexec, consumePins_fidx]
    split
    · rfl
    · split
      · exact hfold
      · exact hn
  · rw [foldsAfter_of_not_valid hrst hvalid, consumePins_fidx, hn]

end Sys2Proof.Machine

namespace Sys2Proof.Proofs
open Sys2Proof.Machine

/-- Settles O27. One step keeps FIDX the count modulo 4, so the planned edges do. -/
theorem fidxCountsFoldsModuloFour : Obligations.FidxCountsFoldsModuloFour := by
  intro ps s n hn
  exact edges_foldl (R := fun s n => s.fidx.toNat = n % 4) step_fidx ps s.inputs (presentAll_inputs s ps) hn

end Sys2Proof.Proofs
end

section
/-! Two runs that start with the same words and FIDX: FOLD and NEXT keep them so, and the draws are the same (rules R44, R73,
R80). -/

namespace Sys2Proof.Machine

namespace SameSeeding

variable {s t : State}

theorem folded (h : SameSeeding s t) (c : Word) : SameSeeding (s.folded c) (t.folded c) := by
  rw [State.folded, State.folded, h.fidx, h.getW]
  exact (h.setW _ _).setFidx _

theorem foldl_folded (h : SameSeeding s t) (codes : List Word) :
    SameSeeding (codes.foldl State.folded s) (codes.foldl State.folded t) := by
  induction codes generalizing s t with
  | nil => exact h
  | cons c codes ih => exact ih (h.folded c)

theorem drawn_out (h : SameSeeding s t) : s.drawn.out = t.drawn.out := by
  rw [Machine.drawn_out, Machine.drawn_out, h.w0, h.w3]

theorem drawn (h : SameSeeding s t) : SameSeeding s.drawn t.drawn := ⟨h.w1, h.w2, h.w3, h.drawn_out, h.fidx⟩

theorem iterate_drawn (h : SameSeeding s t) (n : Nat) : SameSeeding (State.drawn^[n] s) (State.drawn^[n] t) := by
  induction n with
  | zero => exact h
  | succ n ih =>
    rw [Function.iterate_succ_apply', Function.iterate_succ_apply']
    exact ih.drawn

/-- The draws look at the words only. -/
theorem drawMany (h : SameSeeding s t) (n : Nat) :
    ∃ ds s' t', Machine.drawMany n s = .next (ds, s') ∧ Machine.drawMany n t = .next (ds, t') ∧ SameSeeding s' t' := by
  refine ⟨_, _, _, drawMany_eq s n, ?same, h.iterate_drawn n⟩
  rw [drawMany_eq]
  congr 3
  funext k
  rw [Function.iterate_succ_apply', Function.iterate_succ_apply', (h.iterate_drawn k).drawn_out]

end SameSeeding

/-- Four draws take the four words in turn, each with the draw before it (rule R86). -/
theorem drawMany_four (s : State) :
    let o1 := xorshiftN s.w0 s.w3
    let o2 := xorshiftN s.w1 o1
    let o3 := xorshiftN s.w2 o2
    let o4 := xorshiftN s.w3 o3
    drawMany 4 s = .next ([o1, o2, o3, o4], { s with w0 := o1, w1 := o2, w2 := o3, w3 := o4, out := o4 }) :=
  drawMany_eq s 4

/-- CLEAR forgets the words and FIDX of any state. -/
theorem cleared_sameSeeding (s s' : State) : SameSeeding (s.clearWords.setFidx 0#2) (s'.clearWords.setFidx 0#2) :=
  ⟨rfl, rfl, rfl, rfl, rfl⟩

/-- Seeding leaves the same words and FIDX whatever the state before it (rule R73). -/
theorem seeded_sameSeeding (codes : List Word) (s s' : State) :
    ∃ t t', afterCommands (seedCommands codes) s = .next t ∧ afterCommands (seedCommands codes) s' = .next t' ∧
      SameSeeding t t' :=
  ⟨_, _, afterCommands_seedCommands codes s, afterCommands_seedCommands codes s',
    (cleared_sameSeeding s s').foldl_folded codes⟩

end Sys2Proof.Machine

namespace Sys2Proof.Proofs
open Sys2Proof.Machine

/-- Settles O30. Reset and CLEAR leave the same seeding, which the same FOLDs keep the same; draws do not touch FIDX, which names
the word that the next FOLD folds into. -/
theorem foldWithoutClear : Obligations.FoldWithoutClear := by
  refine ⟨?afterReset, ?afterDraws⟩
  case afterReset =>
    intro codes s
    obtain ⟨h0, h1, h2, h3, hf⟩ := (reset_sameSeeding_cleared s).foldl_folded codes
    exact ⟨_, _, afterCommands_folds codes State.reset, afterCommands_seedCommands codes s, h0, h1, h2, h3, hf⟩
  case afterDraws =>
    intro n c s
    have hidx : (State.drawn^[n] s).fidx = s.fidx := iterate_drawn_fidx n s
    refine ⟨_, _, drawMany_eq s n, exec_fold_eq_folded c _, hidx, ?_, ?_, ?_⟩
    · rw [← hidx, getW_folded_self]
      rfl
    · rw [folded_fidx, hidx]
    · intro j hj
      exact getW_folded_of_ne _ c (hidx.symm ▸ hj)

/-- Settles O31. Seeding leaves the same words from both states, and the draws look at the words only. -/
theorem drawsDependOnCodesAndCountOnly : Obligations.DrawsDependOnCodesAndCountOnly := by
  intro codes n s s'
  obtain ⟨t, t', ht, ht', hsame⟩ := seeded_sameSeeding codes s s'
  obtain ⟨r, hr, rfl⟩ := runCommands_of_afterCommands ht
  obtain ⟨r', hr', rfl⟩ := runCommands_of_afterCommands ht'
  obtain ⟨ds, u, u', hu, hu', _⟩ := hsame.drawMany n
  exact ⟨r, r', _, _, hr, hr', hu, hu', rfl⟩

/-- Settles O37. NEXT makes its word from W[0] and W[3] and moves the other words down, so four NEXTs take the words in turn; the
seed a is its one code in W[0]. -/
theorem dependenciesOfOneStep : Obligations.DependenciesOfOneStep := by
  refine ⟨?newWord, fun s => ⟨_, exec_next s, rfl, rfl, rfl⟩, drawMany_four, ?seedA⟩
  case newWord =>
    intro s s' h0 h3
    refine ⟨_, _, exec_next s, exec_next s', ?_, rfl⟩
    rw [drawn_w3, drawn_w3, h0, h3]
  case seedA =>
    intro s
    have hseeded : afterCommands (seedCommands (['a'].map codePoint)) s =
        .next { s with w0 := 0x61#32, w1 := 0#32, w2 := 0#32, w3 := 0#32, fidx := 1#2 } := by
      rw [afterCommands_seedCommands]
      simp [State.folded, State.setFidx, State.clearWords, codePoint, foldWord, foldShift, shl]
    have ht : xorshiftT 0x61#32 = 0x00030861#32 := by decide
    have hfirst : xorshiftN 0x61#32 0#32 = 0x00030B69#32 := by decide
    have hlater : xorshiftN 0#32 0x00030B69#32 = 0x00030B69#32 := by decide
    refine ⟨_, _, hseeded, rfl, rfl, rfl, rfl, ht, drawMany_four _, ?_⟩
    simp only [hfirst, hlater]
    rfl

end Sys2Proof.Proofs
end

section
/-! Edges of a system of several blocks: each changes one entry of the list, by that entry's own step (rules R34, R130). -/

namespace Sys2Proof.Machine

/-- The state after one edge. -/
def State.stepped (s : State) : State :=
  match step s with
  | .next t => t
  | .fault _ | .refused _ => s

theorem stepped_eq {s t : State} (h : step s = .next t) : s.stepped = t := by rw [State.stepped, h]

theorem edgeAt_eq_modify (k : Nat) (sys : System) : edgeAt k sys = .next (sys.modify k State.stepped) := by
  rw [edgeAt, List.modify_eq_set_getElem?]
  cases sys[k]? with
  | none => rfl
  | some s =>
    obtain ⟨t, ht⟩ := step_eq_next s
    simp only [ht, andThen_next, Option.map_eq_map, Option.map_some, Option.getD_some, stepped_eq ht]

end Sys2Proof.Machine

namespace Sys2Proof.Proofs
open Sys2Proof.Machine

/-- Settles O42. An edge modifies one entry of the list, by a function of that entry alone. -/
theorem instancesShareNothing : Obligations.InstancesShareNothing := by
  refine ⟨?others, ?own, ?commute⟩
  case others =>
    intro k sys
    exact ⟨_, edgeAt_eq_modify k sys, List.length_modify _ _ _, fun j hj => List.getElem?_modify_ne _ _ hj.symm⟩
  case own =>
    intro k sys s t hs hstep
    refine ⟨_, edgeAt_eq_modify k sys, ?_⟩
    rw [List.getElem?_modify_eq, hs]
    exact congrArg some (stepped_eq hstep)
  case commute =>
    intro j k sys hjk
    simp only [edgeAt_eq_modify, andThen_next, List.modify_modify_ne _ _ _ hjk]

end Sys2Proof.Proofs
end

section
/-! The host's strings: their character codes and the seed that is used (rules R101, R102). -/

namespace Sys2Proof.Machine

theorem toNat_le_max_code_point (ch : Char) : ch.toNat ≤ 0x10FFFF := by
  rcases ch.valid with hlow | ⟨_, hhigh⟩
  · exact (Nat.le_of_lt hlow).trans (by norm_num)
  · exact Nat.le_of_lt_succ hhigh

theorem utf16Units_of_ge {ch : Char} (h : 0x10000 ≤ ch.toNat) :
    utf16Units ch = [BitVec.ofNat 32 (0xD800 + (ch.toNat - 0x10000) / 0x400),
      BitVec.ofNat 32 (0xDC00 + (ch.toNat - 0x10000) % 0x400)] :=
  if_neg (Nat.not_lt.mpr h)

/-- The two surrogates of a character above U+FFFF: each in its range, and together the code point (log 10). -/
theorem exists_surrogates {ch : Char} (h : 0x10000 ≤ ch.toNat) : ∃ hi lo : Word, utf16Units ch = [hi, lo] ∧
    0xD800 ≤ hi.toNat ∧ hi.toNat < 0xDC00 ∧ 0xDC00 ≤ lo.toNat ∧ lo.toNat < 0xE000 ∧
    ch.toNat = 0x10000 + (hi.toNat - 0xD800) * 0x400 + (lo.toNat - 0xDC00) := by
  have hmax := toNat_le_max_code_point ch
  refine ⟨_, _, utf16Units_of_ge h, ?_⟩
  simp only [BitVec.toNat_ofNat]
  omega

theorem utf16Units_toNat_le (ch : Char) : ∀ c ∈ utf16Units ch, c.toNat ≤ 0xFFFF := by
  intro c hc
  rcases Nat.lt_or_ge ch.toNat 0x10000 with h | h
  · rw [utf16Units_of_lt h, List.mem_singleton] at hc
    rw [hc, codePoint_toNat]
    omega
  · obtain ⟨hi, lo, hunits, _, hhi, _, hlo, _⟩ := exists_surrogates h
    rw [hunits, List.mem_pair] at hc
    rcases hc with rfl | rfl <;> omega

theorem charCodes_append (u : CharUnit) (s s' : List Char) : charCodes u (s ++ s') = charCodes u s ++ charCodes u s' := by
  cases u with
  | codePoint => exact List.map_append
  | utf16Unit => exact List.flatMap_append

theorem charCodes_utf16Unit_singleton (ch : Char) : charCodes .utf16Unit [ch] = utf16Units ch := List.flatMap_singleton ..

/-! Seed resolution -/

variable (p : HostParams) (fallback : List Char)

theorem resolveSeed_empty_of_notSupplied (h : p.emptySeed = .notSupplied) : resolveSeed p fallback (some []) = fallback := by
  rw [resolveSeed, h]

theorem resolveSeed_empty_of_zeroLength (h : p.emptySeed = .zeroLength) : resolveSeed p fallback (some []) = [] := by
  rw [resolveSeed, h]

theorem ne_nil_of_isFallbackSeed {fallback : List Char} (h : isFallbackSeed fallback = true) : fallback ≠ [] := by
  rintro rfl
  exact absurd h (by decide)

end Sys2Proof.Machine

namespace Sys2Proof.Proofs
open Sys2Proof.Machine

/-- Settles O47. Under UTF16_UNIT a character is its code point or its two surrogates, each below 0x10000. -/
theorem characterCodes : Obligations.CharacterCodes := by
  refine ⟨?codePoints, ?atMostMax, ?unitsAtMostMax, fun s => charCodes_of_lt .utf16Unit, ?surrogates, charCodes_append, rfl⟩
  case codePoints =>
    intro s
    rw [charCodes, List.map_map]
    exact List.map_congr_left fun ch _ => codePoint_toNat ch
  case atMostMax =>
    intro s c hc
    obtain ⟨ch, _, rfl⟩ := List.mem_map.mp hc
    rw [codePoint_toNat]
    exact toNat_le_max_code_point ch
  case unitsAtMostMax =>
    intro s c hc
    obtain ⟨ch, _, hch⟩ := List.mem_flatMap.mp hc
    exact utf16Units_toNat_le ch c hch
  case surrogates =>
    intro ch h
    rw [charCodes_utf16Unit_singleton]
    exact exists_surrogates h

/-- Settles O46. Each clause is one of seed resolution; under NOT_SUPPLIED what is used is the fallback or a nonempty seed. -/
theorem seedResolution : Obligations.SeedResolution := by
  refine ⟨fun _ _ => rfl, fun _ _ _ _ => rfl, resolveSeed_empty_of_notSupplied, resolveSeed_empty_of_zeroLength, rfl, ?nonempty⟩
  case nonempty =>
    intro p fb seed hpolicy hfb
    cases seed with
    | none => exact ne_nil_of_isFallbackSeed hfb
    | some text =>
      cases text with
      | nil =>
        rw [resolveSeed_empty_of_notSupplied p fb hpolicy]
        exact ne_nil_of_isFallbackSeed hfb
      | cons ch rest => exact List.cons_ne_nil ch rest

end Sys2Proof.Proofs
end

section
/-! The assembler: a line's edges are its commands' canonical words, nine hexadecimal digits hold a word whole, and what is read from
text has been checked (rule R57; log 13). -/

namespace Sys2Proof.Machine

theorem lineCycles_of_ne_reset (u : CharUnit) {l : AsmLine} (h : l ≠ .reset) :
    lineCycles u l = (lineCommands u l).map fun i => PortIn.ofCommand (encode i) := by
  cases l with
  | reset => exact absurd rfl h
  | nop | clear | fold | next | rdw | rdidx | rsvd6 | rsvd7 | seed | draw | blank => rfl

/-- A canonical word has no ignored bit to clear. -/
theorem canonical_encode (i : Instr) : canonical (encode i) = encode i := by rw [← encode_decode, decode_encode]

/-- The digits of a number, the most significant first, read back as its last digits after what stands before them. -/
theorem digitsValue_hexDigits (n m acc : Nat) :
    digitsValue 16 acc ((List.range m).reverse.map fun i => hexChar (n / 16 ^ i % 16)) = some (acc * 16 ^ m + n % 16 ^ m) := by
  induction m generalizing acc with
  | zero => simp [Nat.mod_one]
  | succ m ih =>
    have hdigit : digitValue 16 (hexChar (n / 16 ^ m % 16)) = some (n / 16 ^ m % 16) :=
      digitValue_hexChar (Nat.mod_lt _ (by norm_num))
    rw [List.range_succ, List.reverse_append, List.reverse_singleton, List.singleton_append, List.map_cons,
      digitsValue_cons _ hdigit, ih, Nat.mod_pow_succ]
    congr 1
    ring

/-- 35 bits fit in nine hexadecimal digits. -/
theorem digitsValue_hexOfCommand (w : Command) : digitsValue 16 0 (hexOfCommand w) = some w.toNat := by
  have hfits : w.toNat % 16 ^ 9 = w.toNat := Nat.mod_eq_of_lt (w.isLt.trans (by norm_num))
  have h := digitsValue_hexDigits w.toNat 9 0
  rwa [Nat.zero_mul, Nat.zero_add, hfits] at h

/-- A line that is read has passed the size check, or is blank. -/
theorem wellFormed_of_parseLine {text : List Char} {l : AsmLine} (h : parseLine text = .ok l) : l.wellFormed = true := by
  unfold parseLine at h
  split at h
  · cases h
    rfl
  · dsimp only at h
    split at h
    · cases h
    · split at h
      · cases h
      · split at h
        · cases h
        · split at h
          · cases h
            assumption
          · cases h

end Sys2Proof.Machine

namespace Sys2Proof.Proofs
open Sys2Proof.Machine

/-- Settles O45. A line's edges are the canonical words of its commands, which decode to them; an operand that fits its field is
the field's value. -/
theorem assemblerLinesEncodeTheirOperands : Obligations.AssemblerLinesEncodeTheirOperands := by
  refine ⟨?cycles, fun _ => ⟨rfl, rfl⟩, fun _ => ⟨rfl, rfl, rfl, rfl, rfl, rfl⟩, ?foldNumber, ?rdwIndex, ?foldQuoted, ?hex,
    fun _ _ => wellFormed_of_parseLine, by rfl, by rfl, by rfl, by rfl, by rfl, by rfl, by rfl⟩
  case cycles =>
    intro u l hl
    rw [lineCycles_of_ne_reset u hl]
    refine ⟨rfl, ?decoded, ?pins⟩
    case decoded =>
      simp [List.map_map, Function.comp_def]
    case pins =>
      intro p hp
      obtain ⟨i, _, rfl⟩ := List.mem_map.mp hp
      exact ⟨rfl, rfl, by rw [command_ofCommand, canonical_encode]⟩
  case foldNumber =>
    intro u n hn
    exact ⟨_, rfl, Nat.mod_eq_of_lt (of_decide_eq_true hn)⟩
  case rdwIndex =>
    intro u k hk
    exact ⟨_, rfl, Nat.mod_eq_of_lt (of_decide_eq_true hk)⟩
  case foldQuoted =>
    intro u ch
    exact ⟨codePoint ch, rfl, codePoint_toNat ch⟩
  case hex =>
    intro w
    exact ⟨rfl, digitsValue_hexOfCommand w⟩

end Sys2Proof.Proofs
end

section
/-! The draw's value and the color arithmetic: every result is a multiple of 2^-31 with at most 53 bits, which binary64 holds (rules
R81, R104; log 19). -/

namespace Sys2Proof.Machine

/-- A value that is a whole number of 2^-31 below 2^53 is not rounded. -/
theorem roundBinary64_of_mul_eq {q : Rat} {k : Nat} (hk : k < 2 ^ 53) (hq : q * 2 ^ 31 = k) : roundBinary64 q = q := by
  rw [eq_div_of_mul_eq (by norm_num) hq]
  exact roundBinary64_of_dyadic k 31 hk (by norm_num)

theorem drawValue_mul (v : Word) : drawValue v * 2 ^ 31 = v.toNat := by
  rw [drawValue, outDen]
  push_cast
  exact div_mul_cancel₀ _ (by norm_num)

theorem drawValue_eq_div (v : Word) : drawValue v = (v.toNat : Rat) / 2147483648 := by
  rw [drawValue, outDen]
  norm_num

theorem roundBinary64_drawValue (v : Word) : roundBinary64 (drawValue v) = drawValue v :=
  roundBinary64_of_mul_eq (v.isLt.trans (by norm_num)) (drawValue_mul v)

section
variable {v1 v2 v3 v4 v5 v6 : Word}

/-- Sums of draws are exact in binary64. -/
theorem add64_drawValue {q : Rat} {k : Nat} (hk : k < 2 ^ 52) (hq : q * 2 ^ 31 = k) (v : Word) :
    add64 q (drawValue v) = q + drawValue v := by
  have hv := v.isLt
  refine roundBinary64_of_mul_eq (k := k + v.toNat) (by omega) ?_
  push_cast
  linear_combination hq + drawValue_mul v

theorem colorOf_hue (h1 : v1.msb = false) : (colorOf v1 v2 v3 v4 v5 v6).hue = (v1.toNat * 360 / 2 ^ 31 : Nat) := by
  have hv := toNat_le_of_msb_false h1
  have hexact : mul64 (drawValue v1) 360 = drawValue v1 * 360 := by
    refine roundBinary64_of_mul_eq (k := v1.toNat * 360) (by omega) ?_
    push_cast
    linear_combination 360 * drawValue_mul v1
  have hquot : drawValue v1 * 360 = ((v1.toNat * 360 : Nat) : Rat) / ((2 ^ 31 : Nat) : Rat) := by
    rw [drawValue, outDen]
    push_cast
    ring
  rw [colorOf, hexact, hquot]
  exact Rat.floor_natCast_div_natCast _ _

theorem colorOf_saturation (h2 : v2.msb = false) : (colorOf v1 v2 v3 v4 v5 v6).saturation = drawValue v2 * 60 + 40 := by
  have hv := toNat_le_of_msb_false h2
  have hmul : mul64 (drawValue v2) 60 = drawValue v2 * 60 := by
    refine roundBinary64_of_mul_eq (k := v2.toNat * 60) (by omega) ?_
    push_cast
    linear_combination 60 * drawValue_mul v2
  rw [colorOf, hmul]
  refine roundBinary64_of_mul_eq (k := v2.toNat * 60 + 40 * 2 ^ 31) (by omega) ?_
  push_cast
  linear_combination 60 * drawValue_mul v2

theorem colorOf_lightness (h3 : v3.msb = false) (h4 : v4.msb = false) (h5 : v5.msb = false) (h6 : v6.msb = false) :
    (colorOf v1 v2 v3 v4 v5 v6).lightness = (drawValue v3 + drawValue v4 + drawValue v5 + drawValue v6) * 25 := by
  have hv3 := toNat_le_of_msb_false h3
  have hv4 := toNat_le_of_msb_false h4
  have hv5 := toNat_le_of_msb_false h5
  have hv6 := toNat_le_of_msb_false h6
  have hsum2 : (drawValue v3 + drawValue v4) * 2 ^ 31 = (v3.toNat + v4.toNat : Nat) := by
    push_cast
    linear_combination drawValue_mul v3 + drawValue_mul v4
  have hsum3 : (drawValue v3 + drawValue v4 + drawValue v5) * 2 ^ 31 = (v3.toNat + v4.toNat + v5.toNat : Nat) := by
    push_cast at hsum2 ⊢
    linear_combination hsum2 + drawValue_mul v5
  rw [colorOf, add64_drawValue (by omega) (drawValue_mul v3), add64_drawValue (by omega) hsum2,
    add64_drawValue (by omega) hsum3]
  refine roundBinary64_of_mul_eq (k := (v3.toNat + v4.toNat + v5.toNat + v6.toNat) * 25) (by omega) ?_
  push_cast at hsum3 ⊢
  linear_combination 25 * hsum3 + 25 * drawValue_mul v6

end

end Sys2Proof.Machine

namespace Sys2Proof.Proofs
open Sys2Proof.Machine

/-- Settles O43. A 32-bit word over 2^31 has at most 32 significant bits. -/
theorem returnedValueIsExact : Obligations.ReturnedValueIsExact := by
  intro v
  refine ⟨drawValue_eq_div v, ?divided, ?multiplied, drawValue_mul v⟩
  case divided => rw [← drawValue_eq_div, roundBinary64_drawValue]
  case multiplied =>
    have hquot : (v.toNat : Rat) * (1 / 2 ^ 31) = drawValue v := by rw [← drawValue_mul]; ring
    rw [mul64, hquot, roundBinary64_drawValue]

end Sys2Proof.Proofs
end

section
/-! The draws the host reads, slot by slot: six of them, each with bit 31 = 0 (rules R83, R104, R105). -/

namespace Sys2Proof.Machine

theorem out_iterate_drawn_msb (s : State) (k : Nat) : (State.drawn^[k + 1] s).out.msb = false := by
  rw [Function.iterate_succ_apply', drawn_out, xorshiftN_msb]

/-- Every draw has bit 31 = 0 (rule R83). -/
theorem drawMany_msb {n : Nat} {s : State} {r : List Word × State} (h : drawMany n s = .next r) : ∀ v ∈ r.1, v.msb = false := by
  rw [drawMany_eq, Host.Outcome.next.injEq] at h
  intro v hv
  rw [← h] at hv
  obtain ⟨k, _, rfl⟩ := List.mem_map.mp hv
  exact out_iterate_drawn_msb s k

/-- A slot without override: six draws, each with bit 31 = 0, and their color. -/
theorem resolveSlot_none (s : State) : ∃ v1 v2 v3 v4 v5 v6 t, drawMany 6 s = .next ([v1, v2, v3, v4, v5, v6], t) ∧
    resolveSlot none s = .next (.drawn (colorOf v1 v2 v3 v4 v5 v6), t) ∧
    v1.msb = false ∧ v2.msb = false ∧ v3.msb = false ∧ v4.msb = false ∧ v5.msb = false ∧ v6.msb = false := by
  obtain ⟨⟨draws, t⟩, hdraws, hlen⟩ := drawMany_eq_next 6 s
  match draws, hlen with
  | [v1, v2, v3, v4, v5, v6], _ =>
    have hslot : resolveSlot none s = .next (.drawn (colorOf v1 v2 v3 v4 v5 v6), t) := by
      rw [resolveSlot, hdraws]
      rfl
    have hsigns := drawMany_msb hdraws
    simp only [List.forall_mem_cons] at hsigns
    obtain ⟨h1, h2, h3, h4, h5, h6, _⟩ := hsigns
    exact ⟨v1, v2, v3, v4, v5, v6, t, hdraws, hslot, h1, h2, h3, h4, h5, h6⟩

theorem slots_eq_drawCommands (o : Options) :
    slotCommands o.color ++ slotCommands o.bgColor ++ slotCommands o.spotColor = drawCommands (6 * unsetSlots o) := by
  simp only [slotCommands_eq_drawCommands, ← drawCommands_add, slotDraws_eq_unsetSlots]

theorem unsetSlots_le_three (o : Options) : unsetSlots o ≤ 3 := by
  simp only [unsetSlots]
  split <;> split <;> split <;> omega

end Sys2Proof.Machine

namespace Sys2Proof.Proofs
open Sys2Proof.Machine

/-- Settles O49. The six draws have bit 31 = 0, and on such words no operation of the color rounds. -/
theorem colorDrawIsExact : Obligations.ColorDrawIsExact := by
  refine ⟨?sixDraws, fun v1 v2 v3 v4 v5 v6 h1 h2 h3 h4 h5 h6 =>
    ⟨colorOf_hue h1, colorOf_saturation h2, colorOf_lightness h3 h4 h5 h6⟩⟩
  case sixDraws =>
    intro s
    obtain ⟨v1, v2, v3, v4, v5, v6, t, hdraws, hslot, hsigns⟩ := resolveSlot_none s
    have hissued : afterCommands (drawCommands 6) s = .next t := by
      rw [afterCommands, ← drawMany, hdraws, andThen_next]
    exact ⟨v1, v2, v3, v4, v5, v6, t, hdraws, hslot, hissued, hsigns⟩

/-- Settles O50. The three slots answer one after the other; their commands together are the draws of the unset ones. -/
theorem paletteResolution : Obligations.PaletteResolution := by
  refine ⟨fun _ _ => rfl, ?unset, ?order, ?issued, unsetSlots_le_three⟩
  case unset =>
    intro s
    obtain ⟨r, hr, _⟩ := drawMany_eq_next 6 s
    exact ⟨r, hr, by rw [resolveSlot, hr, andThen_next]⟩
  case order =>
    intro o s
    obtain ⟨⟨f, s1⟩, hf, _⟩ := resolveSlot_issues o.color s
    obtain ⟨⟨b, s2⟩, hb, _⟩ := resolveSlot_issues o.bgColor s1
    obtain ⟨⟨q, s3⟩, hq, _⟩ := resolveSlot_issues o.spotColor s2
    exact ⟨f, s1, b, s2, q, s3, hf, hb, hq, by simp only [resolvePalette, hf, hb, hq, andThen_next]⟩
  case issued =>
    intro o s
    obtain ⟨⟨palette, t⟩, hpalette, hissued⟩ := resolvePalette_issues o s
    rw [slots_eq_drawCommands] at hissued
    exact ⟨palette, t, hpalette, hissued⟩

end Sys2Proof.Proofs
end

section
/-! The grid, row by row: a row is a palindrome of the right length, and row r stands on the draws r * dataWidth and after (rule
R106). -/

namespace Sys2Proof.Machine

section
variable {size : Nat} {draws : List Word}

theorem length_gridRow (h : draws.length = dataWidth size) : (gridRow size draws).length = size := by
  simp only [gridRow, List.length_append, List.length_map, List.length_reverse, List.length_take, h, mirrorWidth, dataWidth]
  omega

/-- The left part of a row holds the pixels of its draws. -/
theorem getElem?_gridRow_of_lt (h : draws.length = dataWidth size) {x : Nat} (hx : x < dataWidth size) :
    (gridRow size draws)[x]? = draws[x]?.map pixelOf := by
  rw [gridRow, List.getElem?_append_left (by rwa [List.length_map, h]), List.getElem?_map]

theorem reverse_eq_self_of_length_le_one {l : List Int} (h : l.length ≤ 1) : l.reverse = l := by
  match l, h with
  | [], _ => rfl
  | [x], _ => rfl

/-- Between a row's first mirrorWidth pixels and their mirror stands at most one pixel. -/
theorem reverse_gridRow (h : draws.length = dataWidth size) : (gridRow size draws).reverse = gridRow size draws := by
  have hmiddle : ((draws.map pixelOf).drop (mirrorWidth size)).reverse = (draws.map pixelOf).drop (mirrorWidth size) := by
    apply reverse_eq_self_of_length_le_one
    simp only [List.length_drop, List.length_map, h, mirrorWidth, dataWidth]
    omega
  have hrow : gridRow size draws = (draws.map pixelOf).take (mirrorWidth size) ++
      ((draws.map pixelOf).drop (mirrorWidth size) ++ ((draws.map pixelOf).take (mirrorWidth size)).reverse) := by
    rw [← List.append_assoc, List.take_append_drop, gridRow]
  rw [hrow]
  simp only [List.reverse_append, List.reverse_reverse, hmiddle, List.append_assoc]

theorem getElem?_gridRow_mirror (h : draws.length = dataWidth size) {x : Nat} (hx : x < size) :
    (gridRow size draws)[x]? = (gridRow size draws)[size - 1 - x]? := by
  have hlt : x < (gridRow size draws).length := by rwa [length_gridRow h]
  conv_lhs => rw [← reverse_gridRow h]
  rw [List.getElem?_reverse hlt, length_gridRow h]

end

theorem drawMany_add (m n : Nat) (s : State) :
    drawMany (m + n) s = andThen (drawMany m s) fun r => andThen (drawMany n r.2) fun q => .next (r.1 ++ q.1, q.2) := by
  rw [drawMany, drawCommands_add, runCommands_append]
  rfl

/-- The draws of row r. -/
def rowDraws (size r : Nat) (draws : List Word) : List Word := (draws.drop (r * dataWidth size)).take (dataWidth size)

theorem length_rowDraws {size rows r : Nat} {draws : List Word} (h : draws.length = rows * dataWidth size) (hr : r < rows) :
    (rowDraws size r draws).length = dataWidth size := by
  have hfit : (r + 1) * dataWidth size ≤ rows * dataWidth size := Nat.mul_le_mul_right _ hr
  rw [Nat.succ_mul] at hfit
  rw [rowDraws, List.length_take, List.length_drop, h]
  omega

theorem getElem?_rowDraws (size r : Nat) (draws : List Word) {x : Nat} (hx : x < dataWidth size) :
    (rowDraws size r draws)[x]? = draws[r * dataWidth size + x]? := by
  rw [rowDraws, List.getElem?_take_of_lt hx, List.getElem?_drop]

/-- Rows of the grid: as many pixels and draws as they need, and each pixel that of its row. -/
theorem gridRows_eq_next (size rows : Nat) (s : State) : ∃ d t g, drawMany (rows * dataWidth size) s = .next (d, t) ∧
    gridRows size rows s = .next (g, t) ∧ d.length = rows * dataWidth size ∧ g.length = rows * size ∧
    ∀ r x, r < rows → x < size → g[r * size + x]? = (gridRow size (rowDraws size r d))[x]? := by
  induction rows generalizing s with
  | zero => exact ⟨[], s, [], by rw [Nat.zero_mul, drawMany_zero], rfl, by simp, by simp, nofun⟩
  | succ rows ih =>
    obtain ⟨⟨d1, u⟩, hd1, hlen1⟩ := drawMany_eq_next (dataWidth size) s
    obtain ⟨d2, t, g, hd2, hg, hlen2, hglen, hpixel⟩ := ih u
    have hrow : (gridRow size d1).length = size := length_gridRow hlen1
    refine ⟨d1 ++ d2, t, gridRow size d1 ++ g, ?draws, ?rows, ?drawCount, ?pixelCount, ?pixels⟩
    case draws =>
      rw [Nat.succ_mul, Nat.add_comm, drawMany_add, hd1, andThen_next, hd2, andThen_next]
    case rows => rw [gridRows, hd1, andThen_next, hg, andThen_next]
    case drawCount => rw [List.length_append, hlen1, hlen2, Nat.succ_mul, Nat.add_comm]
    case pixelCount => rw [List.length_append, hrow, hglen, Nat.succ_mul, Nat.add_comm]
    case pixels =>
      intro r x hr hx
      cases r with
      | zero =>
        have hfirst : rowDraws size 0 (d1 ++ d2) = d1 := by
          rw [rowDraws, Nat.zero_mul, List.drop_zero, ← hlen1, List.take_left]
        rw [hfirst, Nat.zero_mul, Nat.zero_add, List.getElem?_append_left (hrow.symm ▸ hx)]
      | succ r =>
        have hlater : rowDraws size (r + 1) (d1 ++ d2) = rowDraws size r d2 := by
          rw [rowDraws, Nat.succ_mul, Nat.add_comm, ← List.drop_drop, ← hlen1, List.drop_left, hlen1, rowDraws]
        have hindex : (r + 1) * size + x - size = r * size + x := by rw [Nat.succ_mul]; omega
        rw [hlater, List.getElem?_append_right (by rw [hrow, Nat.succ_mul]; omega), hrow, hindex,
          hpixel r x (by omega) hx]

theorem pixelOf_eq (v : Word) : pixelOf v = (roundBinary64 ((v.toNat : Rat) / 2 ^ 31 * roundBinary64 (23 / 10))).floor := by
  rw [pixelOf, mul64, lit2p3, drawValue, outDen]
  push_cast
  rfl

end Sys2Proof.Machine

namespace Sys2Proof.Proofs
open Sys2Proof.Machine

/-- Settles O51. Row r of the grid is the row on its own draws, whose left part holds their pixels and which is a palindrome. -/
theorem gridHoldsTheDrawsAndTheirMirror : Obligations.GridHoldsTheDrawsAndTheirMirror := by
  refine ⟨?grid, pixelOf_eq, rfl, rfl⟩
  case grid =>
    intro size s
    obtain ⟨d, t, g, hd, hg, hlen, hglen, hpixel⟩ := gridRows_eq_next size size s
    refine ⟨d, t, g, hd, hg, hglen, ?leftPart, ?mirror⟩
    case leftPart =>
      intro r x hr hx
      have hin : x < size := by omega
      rw [hpixel r x hr hin, getElem?_gridRow_of_lt (length_rowDraws hlen hr) hx, getElem?_rowDraws size r d hx]
      rfl
    case mirror =>
      intro r x hr hx
      rw [hpixel r x hr hx, hpixel r (size - 1 - x) hr (by omega), getElem?_gridRow_mirror (length_rowDraws hlen hr) hx]

end Sys2Proof.Proofs
end

section
/-! generate's result, on options that pass validation: its three parts one after the other (rule R107), and which of it depends on
the state before the run (nothing), on the overrides (the palette alone), and on the number of unset slots (rule R108). -/

namespace Sys2Proof.Machine

section
variable {o : Options} (p : HostParams) (fallback : List Char)

/-- The run answers, and its parts are a seeding, a palette, and the rows of the grid. -/
theorem generate_eq_next (h : hostError o = none) (s : State) : ∃ a palette b grid t,
    afterCommands (seedCommands (charCodes p.charUnit (resolveSeed p fallback o.seed))) s = .next a ∧
    resolvePalette o a = .next (palette, b) ∧ gridRows o.size.toNat o.size.toNat b = .next (grid, t) ∧
    generate p fallback o s = .ok (.next (⟨grid, palette, o.size * o.scale⟩, t)) := by
  obtain ⟨a, hseed⟩ := afterCommands_eq_next (seedCommands (charCodes p.charUnit (resolveSeed p fallback o.seed))) s
  obtain ⟨⟨palette, b⟩, hpalette, _⟩ := resolvePalette_issues o a
  obtain ⟨⟨grid, t⟩, hgrid, _⟩ := gridRows_issues o.size.toNat o.size.toNat b
  exact ⟨a, palette, b, grid, t, hseed, hpalette, hgrid, generate_of_parts p fallback h hseed hpalette hgrid⟩

theorem gridOf_of_generate {s t : State} {x : Identicon} (h : generate p fallback o s = .ok (.next (x, t))) :
    gridOf p fallback o s = some x.grid := by
  rw [gridOf, h]

theorem count_next_generateCommands (h : hostError o = none) :
    (generateCommands p fallback o).count .next = 6 * unsetSlots o + o.size.toNat * dataWidth o.size.toNat := by
  rw [generateCommands_eq_seed_draws h, count_next_seed_draws]

end

/-- The palette moves the block on by six draws for each unset slot. -/
theorem resolvePalette_state {o : Options} {s t : State} {palette : Palette} (h : resolvePalette o s = .next (palette, t)) :
    t = State.drawn^[6 * unsetSlots o] s := by
  obtain ⟨r, hr, hissued⟩ := resolvePalette_issues o s
  rw [hr, Host.Outcome.next.injEq] at h
  rw [slots_eq_drawCommands, afterCommands_drawCommands, Host.Outcome.next.injEq, h] at hissued
  exact hissued.symm

/-- The rows look at the words only. -/
theorem SameSeeding.gridRows {s t : State} (h : SameSeeding s t) (size rows : Nat) :
    ∃ g s' t', Machine.gridRows size rows s = .next (g, s') ∧ Machine.gridRows size rows t = .next (g, t') := by
  induction rows generalizing s t with
  | zero => exact ⟨[], s, t, rfl, rfl⟩
  | succ rows ih =>
    obtain ⟨ds, u, v, hu, hv, huv⟩ := h.drawMany (dataWidth size)
    obtain ⟨g, s', t', hs', ht'⟩ := ih huv
    refine ⟨gridRow size ds ++ g, s', t', ?_, ?_⟩
    · rw [Machine.gridRows, hu, andThen_next, hs', andThen_next]
    · rw [Machine.gridRows, hv, andThen_next, ht', andThen_next]

/-- The same seed, size and number of unset slots give the same grid, from any two states (rule R108). -/
theorem gridOf_eq_gridOf (p : HostParams) (fallback : List Char) {o o' : Options} (h : hostError o = none)
    (h' : hostError o' = none) (hseed : o.seed = o'.seed) (hsize : o.size = o'.size) (hslots : unsetSlots o = unsetSlots o')
    (s s' : State) : ∃ g, gridOf p fallback o s = some g ∧ gridOf p fallback o' s' = some g := by
  obtain ⟨a, palette, b, grid, t, ha, hpalette, hgrid, hgen⟩ := generate_eq_next p fallback h s
  obtain ⟨a', palette', b', grid', t', ha', hpalette', hgrid', hgen'⟩ := generate_eq_next p fallback h' s'
  have hseeded : SameSeeding a a' := by
    obtain ⟨c, c', hc, hc', hsame⟩ :=
      seeded_sameSeeding (charCodes p.charUnit (resolveSeed p fallback o.seed)) s s'
    rw [hc, Host.Outcome.next.injEq] at ha
    rw [← hseed, hc', Host.Outcome.next.injEq] at ha'
    rwa [← ha, ← ha']
  have hdrawn : SameSeeding b b' := by
    rw [resolvePalette_state hpalette, resolvePalette_state hpalette', ← hslots]
    exact hseeded.iterate_drawn _
  obtain ⟨g, u, u', hg, hg'⟩ := hdrawn.gridRows o.size.toNat o.size.toNat
  rw [hgrid, Host.Outcome.next.injEq, Prod.mk.injEq] at hg
  rw [hsize, hgrid', Host.Outcome.next.injEq, Prod.mk.injEq] at hg'
  refine ⟨grid, gridOf_of_generate p fallback hgen, ?_⟩
  rw [gridOf_of_generate p fallback hgen', hg.1, hg'.1]

/-! The spec's grids for the seed abc and size 4, run by the kernel: the elaborator's own evaluation stops at `Rat`'s operations -/

theorem gridOf_abc : gridOf {} [] { seed := some ['a', 'b', 'c'], size := 4 } State.reset =
    some [1, 0, 0, 1, 1, 2, 2, 1, 0, 1, 1, 0, 0, 0, 0, 0] := by
  decide +kernel

theorem gridOf_abc_spotColor :
    gridOf {} [] { seed := some ['a', 'b', 'c'], size := 4, spotColor := some "#fff".toList } State.reset =
      some [0, 0, 0, 0, 0, 1, 1, 0, 0, 1, 1, 0, 1, 0, 0, 1] := by
  decide +kernel

end Sys2Proof.Machine

namespace Sys2Proof.Proofs
open Sys2Proof.Machine

/-- Settles O53. The palette only moves the draws on, by six for each unset slot, so the grid does not see which slots those are;
of the spec's grids the third is the second by that, and the first two are evaluated. -/
theorem gridDependsOnSeedSizeAndUnsetSlots : Obligations.GridDependsOnSeedSizeAndUnsetSlots := by
  refine ⟨?sameGrid, gridOf_abc, gridOf_abc_spotColor, ?colorOverride, ?counted⟩
  case sameGrid =>
    intro p fb o o' s s' hsize hscale hscale' hseed hsizes hslots
    exact gridOf_eq_gridOf p fb (hostError_of_pos hsize hscale) (hostError_of_pos (hsizes ▸ hsize) hscale') hseed hsizes hslots
      s s'
  case colorOverride =>
    obtain ⟨g, hcolor, hg⟩ := gridOf_eq_gridOf {} []
      (o := { seed := some ['a', 'b', 'c'], size := 4, color := some "#123456".toList })
      (o' := { seed := some ['a', 'b', 'c'], size := 4, spotColor := some "#fff".toList })
      rfl rfl rfl rfl rfl State.reset State.reset
    rw [hcolor, ← hg, gridOf_abc_spotColor]
  case counted =>
    intro p fb o s hsize hscale
    have hvalid := hostError_of_pos hsize hscale
    obtain ⟨a, palette, b, grid, t, _, _, _, hgen⟩ := generate_eq_next p fb hvalid s
    exact ⟨_, t, hgen, count_next_generateCommands p fb hvalid⟩

end Sys2Proof.Proofs
end

section
/-! The ranges of what the host makes of draws (rule R109; log 9). -/

namespace Sys2Proof.Machine

/-- The ranges of a drawn color: hue in 0..359, saturation in [40, 100), lightness in [0, 100). -/
structure Hsl.InRange (c : Hsl) : Prop where
  hue_nonneg : 0 ≤ c.hue
  hue_le : c.hue ≤ 359
  saturation_ge : 40 ≤ c.saturation
  saturation_lt : c.saturation < 100
  lightness_nonneg : 0 ≤ c.lightness
  lightness_lt : c.lightness < 100

theorem drawValue_lt_one {v : Word} (h : v.msb = false) : drawValue v < 1 :=
  (drawValue_le_of_msb_false h).trans_lt (by norm_num)

theorem colorOf_inRange {v1 v2 v3 v4 v5 v6 : Word} (h1 : v1.msb = false) (h2 : v2.msb = false) (h3 : v3.msb = false)
    (h4 : v4.msb = false) (h5 : v5.msb = false) (h6 : v6.msb = false) : (colorOf v1 v2 v3 v4 v5 v6).InRange := by
  have hv1 := toNat_le_of_msb_false h1
  have hd2 := drawValue_lt_one h2
  have hd3 := drawValue_lt_one h3
  have hd4 := drawValue_lt_one h4
  have hd5 := drawValue_lt_one h5
  have hd6 := drawValue_lt_one h6
  have hn2 := drawValue_nonneg v2
  have hn3 := drawValue_nonneg v3
  have hn4 := drawValue_nonneg v4
  have hn5 := drawValue_nonneg v5
  have hn6 := drawValue_nonneg v6
  constructor
  case hue_nonneg | hue_le => rw [colorOf_hue h1]; omega
  case saturation_ge | saturation_lt => rw [colorOf_saturation h2]; linarith
  case lightness_nonneg | lightness_lt => rw [colorOf_lightness h3 h4 h5 h6]; linarith

/-- Below 2^40 rounding goes up by far less than 1/10. -/
theorem roundBinary64_le_add_tenth {q : Rat} (h0 : 0 ≤ q) (hq : q ≤ 2 ^ 40) : roundBinary64 q ≤ q + 1 / 10 := by
  have hrel : q / 2 ^ 52 ≤ 1 / 10 := by
    rw [div_le_iff₀ (by norm_num)]
    linarith
  have habs : (2 : Rat) ^ (-1074 : Int) ≤ 1 / 10 :=
    (zpow_le_zpow_right₀ (by norm_num) (by norm_num : (-1074 : Int) ≤ -4)).trans (by norm_num)
  exact (roundBinary64_le q h0).trans (add_le_add_right (max_le hrel habs) q)

/-- A draw times 2.3, rounded twice, stays below 3. -/
theorem pixelOf_mem_range {v : Word} (h : v.msb = false) : pixelOf v = 0 ∨ pixelOf v = 1 ∨ pixelOf v = 2 := by
  have hlit0 : 0 ≤ lit2p3 := roundBinary64_nonneg _
  have hlit : lit2p3 ≤ 24 / 10 := (roundBinary64_le_add_tenth (by norm_num) (by norm_num)).trans (by norm_num)
  have hprod0 : 0 ≤ drawValue v * lit2p3 := mul_nonneg (drawValue_nonneg v) hlit0
  have hprod : drawValue v * lit2p3 ≤ 24 / 10 :=
    (mul_le_of_le_one_left hlit0 (drawValue_lt_one h).le).trans hlit
  have hround : mul64 (drawValue v) lit2p3 ≤ drawValue v * lit2p3 + 1 / 10 :=
    roundBinary64_le_add_tenth hprod0 (hprod.trans (by norm_num))
  have hlow : 0 ≤ pixelOf v := Rat.le_floor_iff.mpr (by exact_mod_cast roundBinary64_nonneg _)
  have hhigh : pixelOf v < 3 := Rat.floor_lt_iff.mpr (by push_cast; linarith)
  omega

/-- Every pixel of the grid is the pixel of a draw. -/
theorem gridRow_pixels {size : Nat} {draws : List Word} {x : Int} (h : x ∈ gridRow size draws) : ∃ v ∈ draws, pixelOf v = x := by
  rw [gridRow, List.mem_append, List.mem_reverse] at h
  exact List.mem_map.mp (h.elim id List.mem_of_mem_take)

theorem gridRows_pixels {size rows : Nat} {s : State} {r : List Int × State} (h : gridRows size rows s = .next r) :
    ∀ x ∈ r.1, ∃ v : Word, v.msb = false ∧ pixelOf v = x := by
  induction rows generalizing s r with
  | zero => cases h; exact nofun
  | succ rows ih =>
    obtain ⟨d, hd, hrest⟩ := andThen_eq_next.mp h
    obtain ⟨g, hg, hr⟩ := andThen_eq_next.mp hrest
    cases hr
    intro x hx
    rcases List.mem_append.mp hx with hrow | hlater
    · obtain ⟨v, hv, hpixel⟩ := gridRow_pixels hrow
      exact ⟨v, drawMany_msb hd v hv, hpixel⟩
    · exact ih hg x hlater

/-! The drawn slots -/

theorem resolveSlot_inRange {override : Option (List Char)} {s t : State} {c : Hsl}
    (h : resolveSlot override s = .next (.drawn c, t)) : c.InRange := by
  cases override with
  | some text => cases h
  | none =>
    obtain ⟨v1, v2, v3, v4, v5, v6, u, _, hslot, h1, h2, h3, h4, h5, h6⟩ := resolveSlot_none s
    rw [hslot] at h
    cases h
    exact colorOf_inRange h1 h2 h3 h4 h5 h6

theorem resolvePalette_inRange {o : Options} {s t : State} {palette : Palette} (h : resolvePalette o s = .next (palette, t))
    {c : Hsl} (hc : palette.foreground = .drawn c ∨ palette.background = .drawn c ∨ palette.spot = .drawn c) : c.InRange := by
  obtain ⟨⟨f, s1⟩, hf, hrest⟩ := andThen_eq_next.mp h
  obtain ⟨⟨b, s2⟩, hb, hrest⟩ := andThen_eq_next.mp hrest
  obtain ⟨⟨q, s3⟩, hq, hpalette⟩ := andThen_eq_next.mp hrest
  cases hpalette
  rcases hc with rfl | rfl | rfl
  · exact resolveSlot_inRange hf
  · exact resolveSlot_inRange hb
  · exact resolveSlot_inRange hq

end Sys2Proof.Machine

namespace Sys2Proof.Proofs
open Sys2Proof.Machine

/-- Settles O54. The colors are exact, so their ranges are those of the draws; the pixels are those of draws, and two roundings do
not take 2.3 past 3. -/
theorem hostValueRanges : Obligations.HostValueRanges := by
  refine ⟨?color, fun v => pixelOf_mem_range, ?grid, ?palette⟩
  case color =>
    intro v1 v2 v3 v4 v5 v6 h1 h2 h3 h4 h5 h6
    obtain ⟨hue0, hue, sat0, sat, light0, light⟩ := colorOf_inRange h1 h2 h3 h4 h5 h6
    exact ⟨hue0, hue, sat0, sat, light0, light⟩
  case grid =>
    intro p fb o s hsize hscale
    obtain ⟨a, palette, b, grid, t, _, _, hgrid, hgen⟩ := generate_eq_next p fb (hostError_of_pos hsize hscale) s
    refine ⟨grid, gridOf_of_generate p fb hgen, fun x hx => ?_⟩
    obtain ⟨v, hv, rfl⟩ := gridRows_pixels hgrid x hx
    exact pixelOf_mem_range hv
  case palette =>
    intro p fb o s hsize hscale
    obtain ⟨a, palette, b, grid, t, _, hpalette, _, hgen⟩ := generate_eq_next p fb (hostError_of_pos hsize hscale) s
    refine ⟨_, t, hgen, fun c hc => ?_⟩
    obtain ⟨hue0, hue, sat0, sat, light0, light⟩ := resolvePalette_inRange hpalette hc
    exact ⟨hue0, hue, sat0, sat, light0, light⟩

end Sys2Proof.Proofs
end
